-- ==== Sys2Proof/Word.lean ====
section
/-! DEFINITION. The two register widths of Viking and the word types they give (00_scope.md R9, R10). -/

namespace Sys2Proof

/-- XLEN, the one parameter the architecture leaves to the implementation: 16 or 32 (00_scope.md R9). -/
inductive Xlen where
  | x16
  | x32
deriving DecidableEq, Repr

/-- XLEN as a number of bits. -/
@[reducible] def Xlen.bits : Xlen → Nat
  | .x16 => 16
  | .x32 => 32

/-- WBYTES = XLEN / 8, the bytes of a word (00_scope.md R10, 20_memory.md R48). -/
def Xlen.wbytes (x : Xlen) : Nat := x.bits / 8

/-- "Um byte possui 8 bits" (20_memory.md R48). -/
abbrev Byte := BitVec 8

/-- A register, an address or a data word of the variant x (00_scope.md R9). -/
abbrev Word (x : Xlen) := BitVec x.bits

/-- An instruction: 16 bits in both variants (00_scope.md R4, 30_encoding.md R70). -/
abbrev InstrWord := BitVec 16

end Sys2Proof
end

