-- ==== Sys2Proof/Config.lean ====
section
/-! DEFINITION. What the reference platform fixes (00_scope.md R10) and the values the spec leaves free. -/

namespace Sys2Proof

/-- The four I/O ports of the reference platform, its only devices (60_exceptions.md section 3). -/
inductive Port where
  | outChar
  | outInt
  | inChar
  | inInt
deriving DecidableEq, Repr

namespace Config

/-- ILEN in bytes: the size of every instruction, and the increment of pc (10_state.md R25). -/
def ilenBytes : Nat := 2

/-- The variant State.reset is: 16, the default of 92_eei_decisions.md D1 (log 1, DESIGN CHOICE). -/
def defaultXlen : Xlen := .x16

/-- ENTRY, the address of the first instruction executed (R10, 10_state.md R34). -/
def entry (x : Xlen) : Word x := BitVec.ofNat x.bits 0

/-- MEM_SIZE, the bytes of memory from address 0 (R10, 20_memory.md R50; the 32-bit value is DEDUCED, log 16). -/
def memSize : Xlen → Nat
  | .x16 => 0xE000
  | .x32 => 0x00100000

/-- SP_INIT, the value of r7 when execution starts (R10, 10_state.md R34). -/
def spInit : (x : Xlen) → Word x
  | .x16 => 0xdffe#16
  | .x32 => 0x000ffffc#32

/-- The address of each port (R10, 20_memory.md R49; the 32-bit spacing is 90_conflicts.md C9, log 16). -/
def portAddr : Xlen → Port → Nat
  | .x16, .outChar => 0xf000
  | .x16, .outInt => 0xf002
  | .x16, .inChar => 0xf004
  | .x16, .inInt => 0xf006
  | .x32, .outChar => 0xf0000000
  | .x32, .outInt => 0xf0000004
  | .x32, .inChar => 0xf0000008
  | .x32, .inInt => 0xf000000c

/-- HCF_WORD, the word that ends a simulation (R10, 30_encoding.md R84). -/
def hcfWord : InstrWord := 0x0003#16

/-- FREE VALUE (log 3). The byte that memory holds at an address before anything has stored there:
"unspecified; arbitrary bytes" (10_state.md R34, 92_eei_decisions.md D12). It has no body: nothing can be
proved of it, and every statement holds whatever it is. -/
opaque initialByte (addr : Nat) : Byte

/-- FREE VALUE (log 4). The n-th character the host's character input gives where the state does not list it
(60_exceptions.md R270, 92_eei_decisions.md D16). -/
opaque charStream (n : Nat) : Byte

/-- FREE VALUE (log 4). The n-th integer the host's integer input gives where the state does not list it
(60_exceptions.md R271, 92_eei_decisions.md D16). -/
opaque intStream (n : Nat) : Int

end Config

end Sys2Proof
end

