-- ==== Sys2Proof/Syntax.lean ====
section
/-! DEFINITION. The registers and the instructions of Viking: one constructor of Instr for each row of the
opcode table (30_encoding.md R90). -/

namespace Sys2Proof

/-- The eight general registers (10_state.md R20). None is hardwired (R21). -/
inductive Reg where
  | r0
  | r1
  | r2
  | r3
  | r4
  | r5
  | r6
  | r7
deriving DecidableEq, Repr

/-- The conventional names of r0, r5, r6 and r7 (10_state.md R23). -/
abbrev Reg.at_ : Reg := .r0
@[inherit_doc Reg.at_] abbrev Reg.sr : Reg := .r5
@[inherit_doc Reg.at_] abbrev Reg.lr : Reg := .r6
@[inherit_doc Reg.at_] abbrev Reg.sp : Reg := .r7

/-- The instructions. A type R constructor carries the three register fields Rst, RsA, RsB of its word
(30_encoding.md R72), the fixed one too (R76: the assembly writes it as r0); a type I constructor carries Rst and
the 8-bit Immediate field (R73). -/
inductive Instr where
  /-- and Rst,RsA,RsB (40_computation.md R110) -/
  | andR (rst rsA rsB : Reg)
  /-- and Rst,Immediate (R111) -/
  | andI (rst : Reg) (imm : BitVec 8)
  /-- or Rst,RsA,RsB (R112) -/
  | orR (rst rsA rsB : Reg)
  /-- or Rst,Immediate (R113) -/
  | orI (rst : Reg) (imm : BitVec 8)
  /-- xor Rst,RsA,RsB (R114) -/
  | xorR (rst rsA rsB : Reg)
  /-- xor Rst,Immediate (R115) -/
  | xorI (rst : Reg) (imm : BitVec 8)
  /-- slt Rst,RsA,RsB (R116) -/
  | sltR (rst rsA rsB : Reg)
  /-- slt Rst,Immediate (R117) -/
  | sltI (rst : Reg) (imm : BitVec 8)
  /-- sltu Rst,RsA,RsB (R118) -/
  | sltuR (rst rsA rsB : Reg)
  /-- sltu Rst,Immediate (R119) -/
  | sltuI (rst : Reg) (imm : BitVec 8)
  /-- add Rst,RsA,RsB (R120) -/
  | addR (rst rsA rsB : Reg)
  /-- add Rst,Immediate (R121) -/
  | addI (rst : Reg) (imm : BitVec 8)
  /-- sub Rst,RsA,RsB (R122) -/
  | subR (rst rsA rsB : Reg)
  /-- sub Rst,Immediate (R123) -/
  | subI (rst : Reg) (imm : BitVec 8)
  /-- ldr Rst,Immediate (R124) -/
  | ldr (rst : Reg) (imm : BitVec 8)
  /-- ldc Rst,Immediate (R125) -/
  | ldc (rst : Reg) (imm : BitVec 8)
  /-- lsr Rst,RsA,r0 (41_shift.md R140); rsB is the fixed field -/
  | lsr (rst rsA rsB : Reg)
  /-- asr Rst,RsA,r0 (R141); rsB is the fixed field -/
  | asr (rst rsA rsB : Reg)
  /-- ldb Rst,r0,RsB (42_load_store.md R150); rsA is the fixed field -/
  | ldb (rst rsA rsB : Reg)
  /-- stb r0,RsA,RsB (R151); rst is the fixed field -/
  | stb (rst rsA rsB : Reg)
  /-- ldw Rst,r0,RsB (R152); rsA is the fixed field -/
  | ldw (rst rsA rsB : Reg)
  /-- stw r0,RsA,RsB (R153); rst is the fixed field -/
  | stw (rst rsA rsB : Reg)
  /-- bez r0,RsA,RsB, canonical encoding Op2 = 11 (43_branch.md R170); rst is the fixed field -/
  | bezR (rst rsA rsB : Reg)
  /-- bez r0,RsA,RsB in the reference assembler's encoding Op2 = 00 (R170, 30_encoding.md R85); rst is the fixed field -/
  | bezRAlias (rst rsA rsB : Reg)
  /-- bez Rst,Immediate (R171) -/
  | bezI (rst : Reg) (imm : BitVec 8)
  /-- bnz r0,RsA,RsB, canonical encoding Op2 = 11 (R172); rst is the fixed field -/
  | bnzR (rst rsA rsB : Reg)
  /-- bnz r0,RsA,RsB in the reference assembler's encoding Op2 = 00 (R172, 30_encoding.md R85); rst is the fixed field -/
  | bnzRAlias (rst rsA rsB : Reg)
  /-- bnz Rst,Immediate (R173) -/
  | bnzI (rst : Reg) (imm : BitVec 8)
  /-- hcf, the single word 0x0003 of the simulator platform (45_pseudo_operations.md R200, 30_encoding.md R84) -/
  | hcf
deriving DecidableEq, Repr

/-- The two formats, told apart by bit 11 (30_encoding.md R71). HCF has the fields of type R (R84). -/
inductive Format where
  | typeR
  | typeI
deriving DecidableEq, Repr

/-- The format of each instruction (30_encoding.md R89, R90). -/
def Instr.format : Instr → Format
  | .andR _ _ _ | .orR _ _ _ | .xorR _ _ _ | .sltR _ _ _ | .sltuR _ _ _ | .addR _ _ _ | .subR _ _ _ => .typeR
  | .andI _ _ | .orI _ _ | .xorI _ _ | .sltI _ _ | .sltuI _ _ | .addI _ _ | .subI _ _ => .typeI
  | .ldr _ _ | .ldc _ _ => .typeI
  | .lsr _ _ _ | .asr _ _ _ => .typeR
  | .ldb _ _ _ | .stb _ _ _ | .ldw _ _ _ | .stw _ _ _ => .typeR
  | .bezR _ _ _ | .bezRAlias _ _ _ | .bnzR _ _ _ | .bnzRAlias _ _ _ => .typeR
  | .bezI _ _ | .bnzI _ _ => .typeI
  | .hcf => .typeR

/-- The register an instruction writes, the third column of the table of 10_state.md R24: a store and a branch
write none, HCF writes none (45_pseudo_operations.md R200). -/
def Instr.dest : Instr → Option Reg
  | .andR d _ _ | .orR d _ _ | .xorR d _ _ | .sltR d _ _ | .sltuR d _ _ | .addR d _ _ | .subR d _ _ => some d
  | .andI d _ | .orI d _ | .xorI d _ | .sltI d _ | .sltuI d _ | .addI d _ | .subI d _ => some d
  | .ldr d _ | .ldc d _ => some d
  | .lsr d _ _ | .asr d _ _ => some d
  | .ldb d _ _ | .ldw d _ _ => some d
  | .stb _ _ _ | .stw _ _ _ => none
  | .bezR _ _ _ | .bezRAlias _ _ _ | .bezI _ _ | .bnzR _ _ _ | .bnzRAlias _ _ _ | .bnzI _ _ => none
  | .hcf => none

/-- The registers an instruction reads, the second column of the table of 10_state.md R24. -/
def Instr.sources : Instr → List Reg
  | .andR _ a b | .orR _ a b | .xorR _ a b | .sltR _ a b | .sltuR _ a b | .addR _ a b | .subR _ a b => [a, b]
  | .andI d _ | .orI d _ | .xorI d _ | .sltI d _ | .sltuI d _ | .addI d _ | .subI d _ | .ldc d _ => [d]
  | .ldr _ _ => []
  | .lsr _ a _ | .asr _ a _ => [a]
  | .ldb _ _ b | .ldw _ _ b => [b]
  | .stb _ a b | .stw _ a b => [a, b]
  | .bezR _ a b | .bezRAlias _ a b | .bnzR _ a b | .bnzRAlias _ a b => [a, b]
  | .bezI d _ | .bnzI d _ => [d]
  | .hcf => []

/-- Whether an instruction is one of the two conditional branches, the only instructions that change pc other than
by the increment (10_state.md R26). -/
def Instr.isBranch : Instr → Bool
  | .bezR _ _ _ | .bezRAlias _ _ _ | .bezI _ _ | .bnzR _ _ _ | .bnzRAlias _ _ _ | .bnzI _ _ => true
  | .andR _ _ _ | .orR _ _ _ | .xorR _ _ _ | .sltR _ _ _ | .sltuR _ _ _ | .addR _ _ _ | .subR _ _ _ => false
  | .andI _ _ | .orI _ _ | .xorI _ _ | .sltI _ _ | .sltuI _ _ | .addI _ _ | .subI _ _ => false
  | .ldr _ _ | .ldc _ _ | .lsr _ _ _ | .asr _ _ _ => false
  | .ldb _ _ _ | .stb _ _ _ | .ldw _ _ _ | .stw _ _ _ | .hcf => false

/-- Whether an instruction is a store: only STB and STW store (42_load_store.md, 20_memory.md R40). -/
def Instr.isStore : Instr → Bool
  | .stb _ _ _ | .stw _ _ _ => true
  | .andR _ _ _ | .orR _ _ _ | .xorR _ _ _ | .sltR _ _ _ | .sltuR _ _ _ | .addR _ _ _ | .subR _ _ _ => false
  | .andI _ _ | .orI _ _ | .xorI _ _ | .sltI _ _ | .sltuI _ _ | .addI _ _ | .subI _ _ => false
  | .ldr _ _ | .ldc _ _ | .lsr _ _ _ | .asr _ _ _ | .ldb _ _ _ | .ldw _ _ _ => false
  | .bezR _ _ _ | .bezRAlias _ _ _ | .bezI _ _ | .bnzR _ _ _ | .bnzRAlias _ _ _ | .bnzI _ _ | .hcf => false

end Sys2Proof
end

