-- ==== Sys2Proof/WellFormed.lean ====
section
/-! DEFINITION. Which terms of Instr are instructions: the register field that 30_encoding.md R76 fixes must be r0
("deve ser sempre r0"). Every other operand has a type that admits exactly the values its field encodes. -/

namespace Sys2Proof

/-- The register standing in the fixed field of an instruction that has one: RsB of LSR and ASR, RsA of LDB and LDW,
Rst of STB, STW and the register forms of BEZ and BNZ (30_encoding.md R76). -/
def Instr.fixedField : Instr → Option Reg
  | .lsr _ _ b | .asr _ _ b => some b
  | .ldb _ a _ | .ldw _ a _ => some a
  | .stb d _ _ | .stw d _ _ => some d
  | .bezR d _ _ | .bezRAlias d _ _ | .bnzR d _ _ | .bnzRAlias d _ _ => some d
  | .andR _ _ _ | .orR _ _ _ | .xorR _ _ _ | .sltR _ _ _ | .sltuR _ _ _ | .addR _ _ _ | .subR _ _ _ => none
  | .andI _ _ | .orI _ _ | .xorI _ _ | .sltI _ _ | .sltuI _ _ | .addI _ _ | .subI _ _ => none
  | .ldr _ _ | .ldc _ _ | .bezI _ _ | .bnzI _ _ | .hcf => none

/-- A well-formed instruction has r0 in its fixed field (30_encoding.md R76, 70_reset_and_hazards.md R308). -/
abbrev Instr.WellFormed (i : Instr) : Prop := i.fixedField = none ∨ i.fixedField = some .r0

end Sys2Proof
end

