-- ==== Sys2Proof/Decode.lean ====
section
/-! DEFINITION. The decoder of 30_encoding.md R81, total on any bytes, and the encoder of the encodings of R90. -/

namespace Sys2Proof

/-- The 3-bit index of a register in an instruction field (10_state.md R22). -/
def Reg.index : Reg → BitVec 3
  | .r0 => 0#3
  | .r1 => 1#3
  | .r2 => 2#3
  | .r3 => 3#3
  | .r4 => 4#3
  | .r5 => 5#3
  | .r6 => 6#3
  | .r7 => 7#3

/-- The register a 3-bit index selects (10_state.md R22). -/
def Reg.ofIndex (n : BitVec 3) : Reg :=
  match n.toNat with
  | 0 => .r0
  | 1 => .r1
  | 2 => .r2
  | 3 => .r3
  | 4 => .r4
  | 5 => .r5
  | 6 => .r6
  | _ => .r7

/-! Field extraction (30_encoding.md R74). -/

/-- Opcode = I[15:12]. -/
def opcodeField (w : InstrWord) : BitVec 4 := w.extractLsb' 12 4

/-- Imm = I[11]: false is type R, true is type I (30_encoding.md R71). -/
def immField (w : InstrWord) : Bool := w.getLsbD 11

/-- Rst = I[10:8]. -/
def rstField (w : InstrWord) : Reg := Reg.ofIndex (w.extractLsb' 8 3)

/-- RsA = I[7:5], of a type R word. -/
def rsAField (w : InstrWord) : Reg := Reg.ofIndex (w.extractLsb' 5 3)

/-- RsB = I[4:2], of a type R word. -/
def rsBField (w : InstrWord) : Reg := Reg.ofIndex (w.extractLsb' 2 3)

/-- Op2 = I[1:0], of a type R word. -/
def op2Field (w : InstrWord) : BitVec 2 := w.extractLsb' 0 2

/-- Immediate = I[7:0], of a type I word. -/
def immediateField (w : InstrWord) : BitVec 8 := w.extractLsb' 0 8

/-- Why a decoder refuses. -/
inductive DecodeError where
  /-- fewer than two bytes were given: an instruction is exactly 16 bits long (30_encoding.md R70) -/
  | tooFewBytes
  /-- the word's (Opcode, Imm, Op2) is assigned to no instruction (30_encoding.md R82) -/
  | unassigned (w : InstrWord)
  /-- the word has a non-zero value in the field that R76 fixes to 000 (30_encoding.md R83) -/
  | fixedFieldNotZero (w : InstrWord)
deriving DecidableEq, Repr

/-- Admit an instruction only with r0 in its fixed field (30_encoding.md R83). -/
def admitFixed (w : InstrWord) (i : Instr) : Except DecodeError Instr :=
  if i.WellFormed then .ok i else .error (.fixedFieldNotZero w)

/-- The type I half of the decoding algorithm: select on Opcode alone (30_encoding.md R81). -/
def decodeTypeI (w : InstrWord) : Except DecodeError Instr :=
  let d := rstField w
  let imm := immediateField w
  match (opcodeField w).toNat with
  | 0b0000 => .ok (.andI d imm)
  | 0b0001 => .ok (.orI d imm)
  | 0b0010 => .ok (.xorI d imm)
  | 0b0011 => .ok (.sltI d imm)
  | 0b0100 => .ok (.sltuI d imm)
  | 0b0101 => .ok (.addI d imm)
  | 0b0110 => .ok (.subI d imm)
  | 0b1000 => .ok (.ldr d imm)
  | 0b1001 => .ok (.ldc d imm)
  | 0b1010 => .ok (.bezI d imm)
  | 0b1011 => .ok (.bnzI d imm)
  | _ => .error (.unassigned w)

/-- The type R half of the decoding algorithm: select on Opcode and Op2 (30_encoding.md R81). -/
def decodeTypeR (w : InstrWord) : Except DecodeError Instr :=
  let d := rstField w
  let a := rsAField w
  let b := rsBField w
  match (op2Field w).toNat, (opcodeField w).toNat with
  | 0b00, 0b0000 => .ok (.andR d a b)
  | 0b00, 0b0001 => .ok (.orR d a b)
  | 0b00, 0b0010 => .ok (.xorR d a b)
  | 0b00, 0b0011 => .ok (.sltR d a b)
  | 0b00, 0b0100 => .ok (.sltuR d a b)
  | 0b00, 0b0101 => .ok (.addR d a b)
  | 0b00, 0b0110 => .ok (.subR d a b)
  | 0b01, 0b0000 => admitFixed w (.lsr d a b)
  | 0b01, 0b0001 => admitFixed w (.asr d a b)
  | 0b10, 0b0000 => admitFixed w (.ldb d a b)
  | 0b10, 0b0001 => admitFixed w (.stb d a b)
  | 0b10, 0b0100 => admitFixed w (.ldw d a b)
  | 0b10, 0b0101 => admitFixed w (.stw d a b)
  | 0b11, 0b1010 => admitFixed w (.bezR d a b)
  | 0b11, 0b1011 => admitFixed w (.bnzR d a b)
  | 0b00, 0b1010 => admitFixed w (.bezRAlias d a b)
  | 0b00, 0b1011 => admitFixed w (.bnzRAlias d a b)
  | _, _ => .error (.unassigned w)

/-- The decoding algorithm of 30_encoding.md R81. Only the exact word 0x0003 is HCF (R84). -/
def decodeWord (w : InstrWord) : Except DecodeError Instr :=
  if w = Config.hcfWord then .ok .hcf
  else if immField w then decodeTypeI w
  else decodeTypeR w

/-- Decode the instruction at the head of some bytes, the first byte being the most significant
(30_encoding.md R70, 20_memory.md R42), and give the bytes after it. -/
def decode : List Byte → Except DecodeError (Instr × List Byte)
  | hi :: lo :: rest => (decodeWord (hi ++ lo)).map fun i => (i, rest)
  | [_] => .error .tooFewBytes
  | [] => .error .tooFewBytes

/-- A type R word (30_encoding.md R72). -/
def encodeR (opcode : BitVec 4) (op2 : BitVec 2) (d a b : Reg) : InstrWord :=
  opcode ++ 0#1 ++ d.index ++ a.index ++ b.index ++ op2

/-- A type I word (30_encoding.md R73). -/
def encodeI (opcode : BitVec 4) (d : Reg) (imm : BitVec 8) : InstrWord :=
  opcode ++ 1#1 ++ d.index ++ imm

/-- The word of an instruction (30_encoding.md R90). -/
def encode : Instr → InstrWord
  | .andR d a b => encodeR 0b0000#4 0b00#2 d a b
  | .andI d imm => encodeI 0b0000#4 d imm
  | .orR d a b => encodeR 0b0001#4 0b00#2 d a b
  | .orI d imm => encodeI 0b0001#4 d imm
  | .xorR d a b => encodeR 0b0010#4 0b00#2 d a b
  | .xorI d imm => encodeI 0b0010#4 d imm
  | .sltR d a b => encodeR 0b0011#4 0b00#2 d a b
  | .sltI d imm => encodeI 0b0011#4 d imm
  | .sltuR d a b => encodeR 0b0100#4 0b00#2 d a b
  | .sltuI d imm => encodeI 0b0100#4 d imm
  | .addR d a b => encodeR 0b0101#4 0b00#2 d a b
  | .addI d imm => encodeI 0b0101#4 d imm
  | .subR d a b => encodeR 0b0110#4 0b00#2 d a b
  | .subI d imm => encodeI 0b0110#4 d imm
  | .ldr d imm => encodeI 0b1000#4 d imm
  | .ldc d imm => encodeI 0b1001#4 d imm
  | .lsr d a b => encodeR 0b0000#4 0b01#2 d a b
  | .asr d a b => encodeR 0b0001#4 0b01#2 d a b
  | .ldb d a b => encodeR 0b0000#4 0b10#2 d a b
  | .stb d a b => encodeR 0b0001#4 0b10#2 d a b
  | .ldw d a b => encodeR 0b0100#4 0b10#2 d a b
  | .stw d a b => encodeR 0b0101#4 0b10#2 d a b
  | .bezR d a b => encodeR 0b1010#4 0b11#2 d a b
  | .bezRAlias d a b => encodeR 0b1010#4 0b00#2 d a b
  | .bezI d imm => encodeI 0b1010#4 d imm
  | .bnzR d a b => encodeR 0b1011#4 0b11#2 d a b
  | .bnzRAlias d a b => encodeR 0b1011#4 0b00#2 d a b
  | .bnzI d imm => encodeI 0b1011#4 d imm
  | .hcf => 0x0003#16

/-- A 16-bit word as the two bytes that stand in memory, the most significant first (20_memory.md R42). -/
def wordBytes (w : InstrWord) : List Byte := [w.extractLsb' 8 8, w.extractLsb' 0 8]

/-- The bytes of an instruction (30_encoding.md R70). -/
def encodeBytes (i : Instr) : List Byte := wordBytes (encode i)

/-- One row of the opcode map: a word w is the instruction iff `w and mask = pattern` (30_encoding.md R90). -/
structure OpcodeRow where
  mnemonic : String
  format : Format
  pattern : InstrWord
  mask : InstrWord
deriving DecidableEq, Repr

/-- Whether a word matches a row (30_encoding.md R90). -/
def OpcodeRow.covers (r : OpcodeRow) (w : InstrWord) : Bool := w &&& r.mask == r.pattern

/-- The rows of 30_encoding.md R90 of the computation class (40_computation.md). -/
def computationRows : List OpcodeRow :=
  [⟨"AND", .typeR, 0x0000, 0xF803⟩, ⟨"AND", .typeI, 0x0800, 0xF800⟩,
   ⟨"OR", .typeR, 0x1000, 0xF803⟩, ⟨"OR", .typeI, 0x1800, 0xF800⟩,
   ⟨"XOR", .typeR, 0x2000, 0xF803⟩, ⟨"XOR", .typeI, 0x2800, 0xF800⟩,
   ⟨"SLT", .typeR, 0x3000, 0xF803⟩, ⟨"SLT", .typeI, 0x3800, 0xF800⟩,
   ⟨"SLTU", .typeR, 0x4000, 0xF803⟩, ⟨"SLTU", .typeI, 0x4800, 0xF800⟩,
   ⟨"ADD", .typeR, 0x5000, 0xF803⟩, ⟨"ADD", .typeI, 0x5800, 0xF800⟩,
   ⟨"SUB", .typeR, 0x6000, 0xF803⟩, ⟨"SUB", .typeI, 0x6800, 0xF800⟩,
   ⟨"LDR", .typeI, 0x8800, 0xF800⟩, ⟨"LDC", .typeI, 0x9800, 0xF800⟩]

/-- The rows of 30_encoding.md R90 of the shift, load and store, and branch classes, and HCF. -/
def otherRows : List OpcodeRow :=
  [⟨"LSR", .typeR, 0x0001, 0xF81F⟩, ⟨"ASR", .typeR, 0x1001, 0xF81F⟩,
   ⟨"LDB", .typeR, 0x0002, 0xF8E3⟩, ⟨"STB", .typeR, 0x1002, 0xFF03⟩,
   ⟨"LDW", .typeR, 0x4002, 0xF8E3⟩, ⟨"STW", .typeR, 0x5002, 0xFF03⟩,
   ⟨"BEZ", .typeR, 0xA003, 0xFF03⟩, ⟨"BEZ", .typeR, 0xA000, 0xFF03⟩, ⟨"BEZ", .typeI, 0xA800, 0xF800⟩,
   ⟨"BNZ", .typeR, 0xB003, 0xFF03⟩, ⟨"BNZ", .typeR, 0xB000, 0xFF03⟩, ⟨"BNZ", .typeI, 0xB800, 0xF800⟩,
   ⟨"HCF", .typeR, 0x0003, 0xFFFF⟩]

/-- The complete encodings, one row per instruction form (30_encoding.md R90). The decoder does not use it; that
the two agree is a statement. -/
def opcodeRows : List OpcodeRow := computationRows ++ otherRows

/-- The row of 30_encoding.md R90 that an instruction is an instance of. -/
def Instr.row : Instr → OpcodeRow
  | .andR _ _ _ => ⟨"AND", .typeR, 0x0000, 0xF803⟩
  | .andI _ _ => ⟨"AND", .typeI, 0x0800, 0xF800⟩
  | .orR _ _ _ => ⟨"OR", .typeR, 0x1000, 0xF803⟩
  | .orI _ _ => ⟨"OR", .typeI, 0x1800, 0xF800⟩
  | .xorR _ _ _ => ⟨"XOR", .typeR, 0x2000, 0xF803⟩
  | .xorI _ _ => ⟨"XOR", .typeI, 0x2800, 0xF800⟩
  | .sltR _ _ _ => ⟨"SLT", .typeR, 0x3000, 0xF803⟩
  | .sltI _ _ => ⟨"SLT", .typeI, 0x3800, 0xF800⟩
  | .sltuR _ _ _ => ⟨"SLTU", .typeR, 0x4000, 0xF803⟩
  | .sltuI _ _ => ⟨"SLTU", .typeI, 0x4800, 0xF800⟩
  | .addR _ _ _ => ⟨"ADD", .typeR, 0x5000, 0xF803⟩
  | .addI _ _ => ⟨"ADD", .typeI, 0x5800, 0xF800⟩
  | .subR _ _ _ => ⟨"SUB", .typeR, 0x6000, 0xF803⟩
  | .subI _ _ => ⟨"SUB", .typeI, 0x6800, 0xF800⟩
  | .ldr _ _ => ⟨"LDR", .typeI, 0x8800, 0xF800⟩
  | .ldc _ _ => ⟨"LDC", .typeI, 0x9800, 0xF800⟩
  | .lsr _ _ _ => ⟨"LSR", .typeR, 0x0001, 0xF81F⟩
  | .asr _ _ _ => ⟨"ASR", .typeR, 0x1001, 0xF81F⟩
  | .ldb _ _ _ => ⟨"LDB", .typeR, 0x0002, 0xF8E3⟩
  | .stb _ _ _ => ⟨"STB", .typeR, 0x1002, 0xFF03⟩
  | .ldw _ _ _ => ⟨"LDW", .typeR, 0x4002, 0xF8E3⟩
  | .stw _ _ _ => ⟨"STW", .typeR, 0x5002, 0xFF03⟩
  | .bezR _ _ _ => ⟨"BEZ", .typeR, 0xA003, 0xFF03⟩
  | .bezRAlias _ _ _ => ⟨"BEZ", .typeR, 0xA000, 0xFF03⟩
  | .bezI _ _ => ⟨"BEZ", .typeI, 0xA800, 0xF800⟩
  | .bnzR _ _ _ => ⟨"BNZ", .typeR, 0xB003, 0xFF03⟩
  | .bnzRAlias _ _ _ => ⟨"BNZ", .typeR, 0xB000, 0xFF03⟩
  | .bnzI _ _ => ⟨"BNZ", .typeI, 0xB800, 0xF800⟩
  | .hcf => ⟨"HCF", .typeR, 0x0003, 0xFFFF⟩

/-- The low nbits of a word numbered as the opcode table numbers it: every bit above nbits is 0. -/
def tableWord (nbits w : Nat) : InstrWord := BitVec.ofNat 16 (w % 2 ^ nbits)

/-- The instruction the decoder reads from a word of the opcode table, laid out as the machine stores it. -/
def decodeTableWord (nbits w : Nat) : Option Instr :=
  match decode (wordBytes (tableWord nbits w)) with
  | .ok (i, _) => some i
  | .error _ => none

end Sys2Proof
end

