-- ==== Sys2Proof/Machine/State.lean ====
section
/-! DEFINITION. The state of a Viking machine as plain data, and the state at reset (10_state.md R20 to R34,
00_scope.md R14). INVENTORY.md lists each piece with the rule that names it. -/

namespace Sys2Proof.Machine

/-- Why a step stops: the model-level faults of 60_exceptions.md R261. They are terminal and precise (R262): the step
that raises one has no next state, and nothing of it has happened. The spec chose them for what the manual leaves
undefined (92_eei_decisions.md D4 to D7, D13, D14; log 7 to 10); each is SAFE, since hardware may go on where the
model stops and no claim is proved of that. -/
inductive Fault where
  /-- A step starts with pc odd; raised by the fetch and records pc (20_memory.md R47). Safe. -/
  | misalignedFetch (pc : Nat)
  /-- A fetch, load or store touches an address that is neither memory nor a port with that access form; raised by the
  fetch, LDB, STB, LDW and STW and records the address (20_memory.md R51, 60_exceptions.md R272). Safe. -/
  | accessFault (addr : Nat)
  /-- The fetched word matches no row of the opcode map, or has a non-zero fixed register field; raised by the decode,
  and by a meaning given an instruction with such a field, and records the word (30_encoding.md R82, R83). Safe. -/
  | reservedInstruction (word : InstrWord)
  /-- LDW or STW at an address that is not a multiple of the word size; records the address (20_memory.md R45). Safe. -/
  | misalignedData (addr : Nat)
deriving DecidableEq, Repr

/-- Why the model would decline to give a step. Every instruction of the opcode table has its meaning, so no step of
this model answers one. -/
inductive Refusal where
  /-- exec raises it for an instruction whose meaning is not written yet; there is none. Safe: nothing is claimed. -/
  | notModelled (mnemonic : String)
deriving DecidableEq, Repr

/-- The run status, model state (00_scope.md R14, 60_exceptions.md R262, R273). -/
inductive RunStatus where
  | running
  | halted
  | faulted (f : Fault)
deriving DecidableEq, Repr

/-- An output event, carrying the whole word stored to the port (60_exceptions.md R268, R269). -/
inductive OutEvent (x : Xlen) where
  | outChar (v : Word x)
  | outInt (v : Word x)
deriving DecidableEq, Repr

/-- The eight general registers (10_state.md R20). -/
structure RegFile (x : Xlen) where
  r0 : Word x
  r1 : Word x
  r2 : Word x
  r3 : Word x
  r4 : Word x
  r5 : Word x
  r6 : Word x
  r7 : Word x
deriving DecidableEq, Repr

/-- Memory: the bytes stored so far, by address, in one canonical form (Memory.wf of Machine/Memory.lean). -/
abbrev Memory := List Host.Cell

/-- A machine of the variant x. -/
structure Mach (x : Xlen) where
  /-- r0 to r7 (10_state.md R20) -/
  regs : RegFile x
  /-- the program counter, as wide as a register (10_state.md R25, R27) -/
  pc : Word x
  /-- the bytes stored to memory (10_state.md R33) -/
  mem : Memory
  /-- the run status (60_exceptions.md R262, R273) -/
  status : RunStatus
  /-- the output trace, oldest event first (60_exceptions.md section 3) -/
  output : List (OutEvent x)
  /-- characters the host has supplied and no load has taken yet, next first (60_exceptions.md R270) -/
  charInput : List Byte
  /-- how many characters have been taken: the position in the input stream (10_state.md R32) -/
  charsRead : Nat
  /-- integers the host has supplied and no load has taken yet, next first (60_exceptions.md R271) -/
  intInput : List Int
  /-- how many integers have been taken -/
  intsRead : Nat
  /-- instructions completed, HCF not counted (70_reset_and_hazards.md R306); no instruction reads it -/
  cycles : Nat
deriving DecidableEq, Repr

/-- The state: which variant the machine is (00_scope.md R9), and the machine. -/
structure State where
  xlen : Xlen
  mach : Mach xlen
deriving DecidableEq, Repr

/-- The registers at the start of a run: r7 is SP_INIT (10_state.md R34). The spec gives r0 to r6 no value; the zeros
are the model's (log 2, DESIGN CHOICE, unsafe). -/
def RegFile.reset (x : Xlen) : RegFile x :=
  { r0 := 0, r1 := 0, r2 := 0, r3 := 0, r4 := 0, r5 := 0, r6 := 0, r7 := Config.spInit x }

/-- The machine of the variant x at the start of a run (10_state.md R34, 70_reset_and_hazards.md R300), with nothing
loaded into its memory (log 5) and nothing typed ahead on its inputs (log 4). -/
def Mach.reset (x : Xlen) : Mach x :=
  { regs := RegFile.reset x
    pc := Config.entry x
    mem := []
    status := .running
    output := []
    charInput := []
    charsRead := 0
    intInput := []
    intsRead := 0
    cycles := 0 }

/-- The machine right after reset: the 16-bit variant (log 1). -/
def State.reset : State := { xlen := Config.defaultXlen, mach := Mach.reset Config.defaultXlen }

end Sys2Proof.Machine
end

