-- ==== Sys2Proof/Machine/Memory.lean ====
section
/-! DEFINITION. Memory as sorted (address, byte) pairs: reading, writing, and the canonical form (20_memory.md R40 to
R43; log 3). -/

namespace Sys2Proof.Machine

/-- The byte listed at an address. An unlisted address reads as no listed byte: nothing has been stored there, and
what the machine then sees is Config.initialByte (Mach.byteAt). -/
def Memory.read? : Memory → Nat → Option Byte
  | [], _ => none
  | (a, b) :: rest, addr => if addr = a then some b else if addr < a then none else Memory.read? rest addr

/-- Store one byte, keeping the addresses rising and every address listed once. -/
def Memory.write : Memory → Nat → Byte → Memory
  | [], addr, v => [(addr, v)]
  | (a, b) :: rest, addr, v =>
    if addr = a then (a, v) :: rest
    else if addr < a then (addr, v) :: (a, b) :: rest
    else (a, b) :: Memory.write rest addr v

/-- Store bytes at rising addresses from addr. -/
def Memory.writeBytes : Memory → Nat → List Byte → Memory
  | mem, _, [] => mem
  | mem, addr, b :: bs => Memory.writeBytes (mem.write addr b) (addr + 1) bs

/-- Whether the addresses rise strictly from above a bound. -/
def Memory.risingFrom : Option Nat → Memory → Bool
  | _, [] => true
  | none, (a, _) :: rest => Memory.risingFrom (some a) rest
  | some lo, (a, _) :: rest => decide (lo < a) && Memory.risingFrom (some a) rest

/-- The canonical form: addresses strictly rising, so that each address is listed at most once and two memories that
list the same bytes are the same list. No entry equals what an unlisted address reads as, since that is no listed
byte. -/
def Memory.wf (mem : Memory) : Bool := Memory.risingFrom none mem

/-- Whether every listed address lies below a limit. -/
def Memory.below (mem : Memory) (limit : Nat) : Bool := mem.all fun c => decide (c.1 < limit)

/-- The bytes of a value of n bytes, the most significant first (20_memory.md R42, R43). -/
def splitBE {w : Nat} (v : BitVec w) : Nat → List Byte
  | 0 => []
  | n + 1 => v.extractLsb' (8 * n) 8 :: splitBE v n

/-- The value of w bits that some bytes stand for, the first being the most significant (20_memory.md R42, R43). -/
def joinBE (w : Nat) (bytes : List Byte) : BitVec w :=
  bytes.foldl (fun acc b => (acc <<< 8) ||| b.setWidth w) 0

end Sys2Proof.Machine
end

