-- ==== Sys2Proof/Machine/Operands.lean ====
section
/-! DEFINITION. The operand forms: register, immediate and PC-relative (30_encoding.md R77 to R80, R88), and the
effective address of a load, store or register branch (42_load_store.md R154). -/

namespace Sys2Proof.Machine

/-- Read one register of the register file (10_state.md R22). None is hardwired (R21). -/
def RegFile.read {x : Xlen} (f : RegFile x) : Reg → Word x
  | .r0 => f.r0
  | .r1 => f.r1
  | .r2 => f.r2
  | .r3 => f.r3
  | .r4 => f.r4
  | .r5 => f.r5
  | .r6 => f.r6
  | .r7 => f.r7

/-- Write one register of the register file (10_state.md R22). None is hardwired (R21). -/
def RegFile.write {x : Xlen} (f : RegFile x) (r : Reg) (v : Word x) : RegFile x :=
  match r with
  | .r0 => { f with r0 := v }
  | .r1 => { f with r1 := v }
  | .r2 => { f with r2 := v }
  | .r3 => { f with r3 := v }
  | .r4 => { f with r4 := v }
  | .r5 => { f with r5 := v }
  | .r6 => { f with r6 := v }
  | .r7 => { f with r7 := v }

/-- x[i], the whole register (00_scope.md R12, 30_encoding.md R80). -/
def Mach.reg {x : Xlen} (m : Mach x) (r : Reg) : Word x := m.regs.read r

/-- SEXT(Immediate) = sext_XLEN(I[7:0]) (30_encoding.md R77). -/
def sextImm (x : Xlen) (imm : BitVec 8) : Word x := imm.signExtend x.bits

/-- ZEXT(Immediate) = zext_XLEN(I[7:0]) (30_encoding.md R78). -/
def zextImm (x : Xlen) (imm : BitVec 8) : Word x := imm.setWidth x.bits

/-- The effective address of a load, a store or a register branch: the whole base register, with no displacement,
index or scaling (42_load_store.md R154, 20_memory.md R41). -/
def Mach.effectiveAddr {x : Xlen} (m : Mach x) (rsB : Reg) : Word x := m.reg rsB

/-- The target of a PC-relative branch, pc already holding the branch's address + 2: an unscaled byte offset, modulo
2^PCLEN (30_encoding.md R79, 43_branch.md R171, 10_state.md R28). -/
def Mach.relativeTarget {x : Xlen} (m : Mach x) (imm : BitVec 8) : Word x := m.pc + sextImm x imm

end Sys2Proof.Machine
end

