-- ==== Sys2Proof/Machine/Ops.lean ====
section
/-! DEFINITION. The named operations over registers, memory and ports that the meanings share, and raising a fault. -/

namespace Sys2Proof.Machine

/-! ## Registers and pc -/

/-- x[i] <- v (00_scope.md R12). -/
def Mach.setReg {x : Xlen} (m : Mach x) (r : Reg) (v : Word x) : Mach x := { m with regs := m.regs.write r v }

/-- pc <- t: set the address of the next instruction (00_scope.md R12). -/
def Mach.setPc {x : Xlen} (m : Mach x) (t : Word x) : Mach x := { m with pc := t }

/-- The increment of pc when an instruction is decoded: pc + 2 modulo 2^PCLEN (10_state.md R25, R28). -/
def Mach.advance {x : Xlen} (m : Mach x) : Mach x :=
  m.setPc (m.pc + BitVec.ofNat x.bits Config.ilenBytes)

/-! ## Faults

Taking an exception: the architecture has none, saves nothing, goes nowhere and returns from nothing (60_exceptions.md
R260, R265, R266). What a situation the manual leaves undefined does is raise a model fault, which ends the run. -/

/-- raise f: the step stops with the fault and nothing of it happens (00_scope.md R12, 60_exceptions.md R262). -/
def raise {α : Type} (f : Fault) : Except Fault α := .error f

/-- The state after a step's outcome: on a fault, the state before the step with the run status Faulted(f)
(60_exceptions.md R262). -/
def State.settle (s : State) : Host.Outcome State Fault Refusal → State
  | .next t => t
  | .fault f => { s with mach := { s.mach with status := .faulted f } }
  | .refused _ => s

/-! ## Memory -/

/-- The byte memory holds at an address: the last one stored there, or else the initial one (20_memory.md R55), which is
a free value (log 3). -/
def Mach.byteAt {x : Xlen} (m : Mach x) (addr : Nat) : Byte :=
  (m.mem.read? addr).getD (Config.initialByte addr)

/-- The n bytes from an address on. -/
def Mach.bytesAt {x : Xlen} (m : Mach x) (addr : Nat) : Nat → List Byte
  | 0 => []
  | n + 1 => m.byteAt addr :: Mach.bytesAt m (addr + 1) n

/-- MemRead(addr, n): the n bytes from addr as one big-endian value of w = 8n bits (20_memory.md R43). -/
def Mach.memRead {x : Xlen} (m : Mach x) (addr n w : Nat) : BitVec w := joinBE w (m.bytesAt addr n)

/-- MemWrite(addr, n, v): the n bytes of v stored big-endian from addr (20_memory.md R43). -/
def Mach.memWrite {x : Xlen} {w : Nat} (m : Mach x) (addr n : Nat) (v : BitVec w) : Mach x :=
  { m with mem := m.mem.writeBytes addr (splitBE v n) }

/-- Whether the n bytes from addr lie wholly inside memory, [0, MEM_SIZE) (20_memory.md R50, R51). -/
def inMemory (x : Xlen) (addr n : Nat) : Bool := decide (addr + n ≤ Config.memSize x)

/-- The port at an address, if there is one (20_memory.md R49, R52). -/
def portAt (x : Xlen) (addr : Nat) : Option Port :=
  if addr = Config.portAddr x .outChar then some .outChar
  else if addr = Config.portAddr x .outInt then some .outInt
  else if addr = Config.portAddr x .inChar then some .inChar
  else if addr = Config.portAddr x .inInt then some .inInt
  else none

/-! ## Ports -/

/-- Append an event to the output trace (60_exceptions.md R268, R269). -/
def Mach.emit {x : Xlen} (m : Mach x) (e : OutEvent x) : Mach x := { m with output := m.output ++ [e] }

/-- The next value of the character input: the first the host has supplied, or else a free value (60_exceptions.md
R270; log 4). -/
def Mach.nextChar {x : Xlen} (m : Mach x) : Byte := m.charInput.headD (Config.charStream m.charsRead)

/-- The next value of the integer input (60_exceptions.md R271; log 4). -/
def Mach.nextInt {x : Xlen} (m : Mach x) : Int := m.intInput.headD (Config.intStream m.intsRead)

/-- Remove the next value from the character input (60_exceptions.md R270). -/
def Mach.takeChar {x : Xlen} (m : Mach x) : Mach x :=
  { m with charInput := m.charInput.tail, charsRead := m.charsRead + 1 }

/-- Remove the next value from the integer input (60_exceptions.md R271). -/
def Mach.takeInt {x : Xlen} (m : Mach x) : Mach x :=
  { m with intInput := m.intInput.tail, intsRead := m.intsRead + 1 }

/-- LDW from a port: IN_CHAR gives zext(c), IN_INT gives n mod 2^XLEN, and each takes the value it gives; an output
port is not read (60_exceptions.md R270 to R272). -/
def Mach.loadPort {x : Xlen} (m : Mach x) (addr : Nat) : Port → Except Fault (Word x × Mach x)
  | .inChar => .ok (m.nextChar.setWidth x.bits, m.takeChar)
  | .inInt => .ok (BitVec.ofInt x.bits m.nextInt, m.takeInt)
  | .outChar => raise (.accessFault addr)
  | .outInt => raise (.accessFault addr)

/-- STW to a port: the two output ports append an event with the whole word; an input port is not written
(60_exceptions.md R268, R269, R272). -/
def Mach.storePort {x : Xlen} (m : Mach x) (addr : Nat) (v : Word x) : Port → Except Fault (Mach x)
  | .outChar => .ok (m.emit (.outChar v))
  | .outInt => .ok (m.emit (.outInt v))
  | .inChar => raise (.accessFault addr)
  | .inInt => raise (.accessFault addr)

/-! ## Data accesses, with the checks of 42_load_store.md R155 in its order -/

/-- The data access of LDB: memory only, since no port has a byte access form (42_load_store.md R150, R155). -/
def Mach.loadByte {x : Xlen} (m : Mach x) (ea : Word x) : Except Fault Byte :=
  if inMemory x ea.toNat 1 then .ok (m.memRead ea.toNat 1 8) else raise (.accessFault ea.toNat)

/-- The data access of STB (42_load_store.md R151, R155). -/
def Mach.storeByte {x : Xlen} (m : Mach x) (ea : Word x) (b : Byte) : Except Fault (Mach x) :=
  if inMemory x ea.toNat 1 then .ok (m.memWrite ea.toNat 1 b) else raise (.accessFault ea.toNat)

/-- The data access of LDW: the loaded word and the machine after it, which differs only where an input port gave a
value (42_load_store.md R152, R155). -/
def Mach.loadWord {x : Xlen} (m : Mach x) (ea : Word x) : Except Fault (Word x × Mach x) :=
  if ea.toNat % x.wbytes ≠ 0 then raise (.misalignedData ea.toNat)
  else if inMemory x ea.toNat x.wbytes then .ok (m.memRead ea.toNat x.wbytes x.bits, m)
  else
    match portAt x ea.toNat with
    | some p => m.loadPort ea.toNat p
    | none => raise (.accessFault ea.toNat)

/-- The data access of STW (42_load_store.md R153, R155). -/
def Mach.storeWord {x : Xlen} (m : Mach x) (ea v : Word x) : Except Fault (Mach x) :=
  if ea.toNat % x.wbytes ≠ 0 then raise (.misalignedData ea.toNat)
  else if inMemory x ea.toNat x.wbytes then .ok (m.memWrite ea.toNat x.wbytes v)
  else
    match portAt x ea.toNat with
    | some p => m.storePort ea.toNat v p
    | none => raise (.accessFault ea.toNat)

/-! ## Running one instruction -/

/-- Run what an instruction does to the machine of a state, and answer the step's outcome. -/
def State.perform (s : State) (f : Mach s.xlen → Except Fault (Mach s.xlen)) : Host.Outcome State Fault Refusal :=
  match f s.mach with
  | .ok m => .next { xlen := s.xlen, mach := m }
  | .error r => .fault r

/-- Go on only if the fixed register field of the instruction i is r0; otherwise its word is reserved
(30_encoding.md R76, R83). -/
def withFixedField {α : Type} (i : Instr) (go : Except Fault α) : Except Fault α :=
  if i.WellFormed then go else raise (.reservedInstruction (encode i))

/-- Count a completed instruction. HCF is not counted (70_reset_and_hazards.md R306): it is the instruction that leaves
the run status halted. -/
def State.retire : Host.Outcome State Fault Refusal → Host.Outcome State Fault Refusal
  | .next t =>
    match t.mach.status with
    | .running => .next { t with mach := { t.mach with cycles := t.mach.cycles + 1 } }
    | .halted => .next t
    | .faulted _ => .next t
  | .fault r => .fault r
  | .refused r => .refused r

/-! ## Fetch -/

/-- Fetch the instruction word at pc: alignment, then range, then the two bytes (20_memory.md R61 point 1, R47, R51). -/
def Mach.fetch {x : Xlen} (m : Mach x) : Except Fault InstrWord :=
  if m.pc.toNat % 2 ≠ 0 then raise (.misalignedFetch m.pc.toNat)
  else if inMemory x m.pc.toNat Config.ilenBytes then .ok (m.memRead m.pc.toNat Config.ilenBytes 16)
  else raise (.accessFault m.pc.toNat)

/-- Fetch and decode: a word the decoder refuses raises ReservedInstruction (20_memory.md R61 points 1 and 3,
60_exceptions.md R261). -/
def Mach.fetchInstr {x : Xlen} (m : Mach x) : Except Fault Instr :=
  match m.fetch with
  | .error r => .error r
  | .ok w =>
    match decodeWord w with
    | .ok i => .ok i
    | .error _ => raise (.reservedInstruction w)

/-- The state in which a decoded instruction runs: pc already holds its address + 2 (10_state.md R25). -/
def State.advance (s : State) : State := { s with mach := s.mach.advance }

/-- Store a word where the machine fetches its next instruction, the most significant byte first (20_memory.md R42). -/
def Mach.placeWord {x : Xlen} (m : Mach x) (w : InstrWord) : Mach x :=
  { m with mem := m.mem.writeBytes m.pc.toNat (wordBytes w) }

end Sys2Proof.Machine
end

