-- ==== Sys2Proof/Machine/Branch.lean ====
section
/-! DEFINITION. The conditional branches: BEZ and BNZ (43_branch.md). The condition is a test of the whole register
against zero; pc already holds the branch's address + 2 (10_state.md R25); no register is written; the target is not
checked, a bad one faults at the next fetch (R174). -/

namespace Sys2Proof.Machine

/-- x[r] == 0, the condition of BEZ (43_branch.md R170). -/
def Mach.isZero {x : Xlen} (m : Mach x) (r : Reg) : Bool := m.reg r == 0

/-- Branch to a target if the condition holds; otherwise pc stays at the next instruction. -/
def Mach.branchIf {x : Xlen} (m : Mach x) (cond : Bool) (target : Word x) : Mach x :=
  if cond then m.setPc target else m

/-- BEZ, register form: if x[RsA] == 0 then pc <- x[RsB] (43_branch.md R170). -/
def execBezR (rst rsA rsB : Reg) (s : State) : Host.Outcome State Fault Refusal :=
  s.perform fun m => withFixedField (.bezR rst rsA rsB) (
    .ok (m.branchIf (m.isZero rsA) (m.effectiveAddr rsB)))

/-- BEZ, register form in the reference assembler's encoding: the same branch (30_encoding.md R85, 43_branch.md
R170; log 13). -/
def execBezRAlias (rst rsA rsB : Reg) (s : State) : Host.Outcome State Fault Refusal :=
  s.perform fun m => withFixedField (.bezRAlias rst rsA rsB) (
    .ok (m.branchIf (m.isZero rsA) (m.effectiveAddr rsB)))

/-- BEZ, PC-relative form: if x[Rst] == 0 then pc <- pc + sext(Immediate) modulo 2^PCLEN (43_branch.md R171). -/
def execBezI (rst : Reg) (imm : BitVec 8) (s : State) : Host.Outcome State Fault Refusal :=
  s.perform fun m => .ok (m.branchIf (m.isZero rst) (m.relativeTarget imm))

/-- BNZ, register form: if x[RsA] != 0 then pc <- x[RsB] (43_branch.md R172) (log 17). -/
def execBnzR (rst rsA rsB : Reg) (s : State) : Host.Outcome State Fault Refusal :=
  s.perform fun m => withFixedField (.bnzR rst rsA rsB) (
    .ok (m.branchIf (!m.isZero rsA) (m.effectiveAddr rsB)))

/-- BNZ, register form in the reference assembler's encoding: the same branch (30_encoding.md R85, 43_branch.md
R172; log 13). -/
def execBnzRAlias (rst rsA rsB : Reg) (s : State) : Host.Outcome State Fault Refusal :=
  s.perform fun m => withFixedField (.bnzRAlias rst rsA rsB) (
    .ok (m.branchIf (!m.isZero rsA) (m.effectiveAddr rsB)))

/-- BNZ, PC-relative form: if x[Rst] != 0 then pc <- pc + sext(Immediate) modulo 2^PCLEN (43_branch.md R173). -/
def execBnzI (rst : Reg) (imm : BitVec 8) (s : State) : Host.Outcome State Fault Refusal :=
  s.perform fun m => .ok (m.branchIf (!m.isZero rst) (m.relativeTarget imm))

end Sys2Proof.Machine
end

