-- ==== Sys2Proof/Machine/Flags.lean ====
section
/-! DEFINITION. The comparison conditions. The architecture has no flags (10_state.md R30); the qualifiers N, V and C
of the manual exist only inside one SLT or SLTU (40_computation.md R127, R128). -/

namespace Sys2Proof.Machine

/-- The SLT condition, as R127 lets a model use it directly: signed(A) < signed(B). -/
def sltCondition {x : Xlen} (a b : Word x) : Bool := a.slt b

/-- The SLTU condition, as R128 lets a model use it directly: unsigned(A) < unsigned(B). -/
def sltuCondition {x : Xlen} (a b : Word x) : Bool := a.ult b

/-- A condition as a register value: bit 0 holds it and the others are zero (40_computation.md R116, R118). -/
def boolWord (x : Xlen) (c : Bool) : Word x := if c then 1 else 0

/-- The difference the ALU forms inside SLT and SLTU: D = (A - B) mod 2^XLEN (R127). -/
def aluDifference {x : Xlen} (a b : Word x) : Word x := a - b

/-- The internal qualifier negative: N = D[XLEN-1] (R127; the definition is general knowledge, log 15). -/
def aluNegative {x : Xlen} (a b : Word x) : Bool := (aluDifference a b).msb

/-- The internal qualifier overflow: V = (A[XLEN-1] != B[XLEN-1]) and (D[XLEN-1] != A[XLEN-1]) (R127; the definition
is general knowledge, log 15). -/
def aluOverflow {x : Xlen} (a b : Word x) : Bool := (a.msb != b.msb) && ((aluDifference a b).msb != a.msb)

/-- The internal qualifier carry: the subtraction A - B, done on one bit more than the register has, needs a borrow
(40_computation.md R128). -/
def aluBorrow {x : Xlen} (a b : Word x) : Bool := (a.setWidth (x.bits + 1) - b.setWidth (x.bits + 1)).msb

end Sys2Proof.Machine
end

