-- ==== Sys2Proof/Machine/Computation.lean ====
section
/-! DEFINITION. The computation class: AND, OR, XOR, SLT, SLTU, ADD, SUB, LDR, LDC (40_computation.md). Every source is
read before the destination is written (R129), overflow is silent (R126), and pc is not changed. -/

namespace Sys2Proof.Machine

/-- The shape of the class: compute a value from the machine and write it to x[Rst] (10_state.md R24). -/
def State.compute (s : State) (rst : Reg) (value : Mach s.xlen → Word s.xlen) : Host.Outcome State Fault Refusal :=
  s.perform fun m => .ok (m.setReg rst (value m))

/-- AND, register form: x[Rst] <- x[RsA] and x[RsB] (40_computation.md R110). -/
def execAndR (rst rsA rsB : Reg) (s : State) : Host.Outcome State Fault Refusal :=
  s.compute rst fun m => m.reg rsA &&& m.reg rsB

/-- AND, immediate form: x[Rst] <- x[Rst] and zext(Immediate) (40_computation.md R111). -/
def execAndI (rst : Reg) (imm : BitVec 8) (s : State) : Host.Outcome State Fault Refusal :=
  s.compute rst fun m => m.reg rst &&& zextImm s.xlen imm

/-- OR, register form: x[Rst] <- x[RsA] or x[RsB] (40_computation.md R112). -/
def execOrR (rst rsA rsB : Reg) (s : State) : Host.Outcome State Fault Refusal :=
  s.compute rst fun m => m.reg rsA ||| m.reg rsB

/-- OR, immediate form: x[Rst] <- x[Rst] or zext(Immediate) (40_computation.md R113). -/
def execOrI (rst : Reg) (imm : BitVec 8) (s : State) : Host.Outcome State Fault Refusal :=
  s.compute rst fun m => m.reg rst ||| zextImm s.xlen imm

/-- XOR, register form: x[Rst] <- x[RsA] xor x[RsB] (40_computation.md R114). -/
def execXorR (rst rsA rsB : Reg) (s : State) : Host.Outcome State Fault Refusal :=
  s.compute rst fun m => m.reg rsA ^^^ m.reg rsB

/-- XOR, immediate form: x[Rst] <- x[Rst] xor sext(Immediate) (40_computation.md R115). -/
def execXorI (rst : Reg) (imm : BitVec 8) (s : State) : Host.Outcome State Fault Refusal :=
  s.compute rst fun m => m.reg rst ^^^ sextImm s.xlen imm

/-- SLT, register form: 1 if signed(x[RsA]) < signed(x[RsB]), else 0 (40_computation.md R116, R127). -/
def execSltR (rst rsA rsB : Reg) (s : State) : Host.Outcome State Fault Refusal :=
  s.compute rst fun m => boolWord s.xlen (sltCondition (m.reg rsA) (m.reg rsB))

/-- SLT, immediate form: 1 if signed(x[Rst]) < signed(sext(Immediate)), else 0; the first operand is x[Rst] (90_conflicts.md C2) (40_computation.md R117). -/
def execSltI (rst : Reg) (imm : BitVec 8) (s : State) : Host.Outcome State Fault Refusal :=
  s.compute rst fun m => boolWord s.xlen (sltCondition (m.reg rst) (sextImm s.xlen imm))

/-- SLTU, register form: 1 if unsigned(x[RsA]) < unsigned(x[RsB]), else 0 (40_computation.md R118, R128). -/
def execSltuR (rst rsA rsB : Reg) (s : State) : Host.Outcome State Fault Refusal :=
  s.compute rst fun m => boolWord s.xlen (sltuCondition (m.reg rsA) (m.reg rsB))

/-- SLTU, immediate form: 1 if unsigned(x[Rst]) < unsigned(sext(Immediate)), else 0; the first operand is x[Rst] (90_conflicts.md C2) (40_computation.md R119). -/
def execSltuI (rst : Reg) (imm : BitVec 8) (s : State) : Host.Outcome State Fault Refusal :=
  s.compute rst fun m => boolWord s.xlen (sltuCondition (m.reg rst) (sextImm s.xlen imm))

/-- ADD, register form: x[Rst] <- x[RsA] + x[RsB] modulo 2^XLEN (40_computation.md R120, R126). -/
def execAddR (rst rsA rsB : Reg) (s : State) : Host.Outcome State Fault Refusal :=
  s.compute rst fun m => m.reg rsA + m.reg rsB

/-- ADD, immediate form: x[Rst] <- x[Rst] + sext(Immediate) modulo 2^XLEN (40_computation.md R121). -/
def execAddI (rst : Reg) (imm : BitVec 8) (s : State) : Host.Outcome State Fault Refusal :=
  s.compute rst fun m => m.reg rst + sextImm s.xlen imm

/-- SUB, register form: x[Rst] <- x[RsA] - x[RsB] modulo 2^XLEN (log 17) (40_computation.md R122, R126). -/
def execSubR (rst rsA rsB : Reg) (s : State) : Host.Outcome State Fault Refusal :=
  s.compute rst fun m => m.reg rsA - m.reg rsB

/-- SUB, immediate form: x[Rst] <- x[Rst] - sext(Immediate) modulo 2^XLEN (40_computation.md R123). -/
def execSubI (rst : Reg) (imm : BitVec 8) (s : State) : Host.Outcome State Fault Refusal :=
  s.compute rst fun m => m.reg rst - sextImm s.xlen imm

/-- LDR: x[Rst] <- sext(Immediate); the old content is not used (40_computation.md R124). -/
def execLdr (rst : Reg) (imm : BitVec 8) (s : State) : Host.Outcome State Fault Refusal :=
  s.compute rst fun _ => sextImm s.xlen imm

/-- LDC: x[Rst] <- (x[Rst] << 8) + zext(Immediate) modulo 2^XLEN (40_computation.md R125, 90_conflicts.md C3). -/
def execLdc (rst : Reg) (imm : BitVec 8) (s : State) : Host.Outcome State Fault Refusal :=
  s.compute rst fun m => (m.reg rst <<< 8) + zextImm s.xlen imm

end Sys2Proof.Machine
end

