-- ==== Sys2Proof/Machine/LoadStore.lean ====
section
/-! DEFINITION. The load and store class: LDB, STB, LDW, STW (42_load_store.md). One data access each, at the whole
base register; no base register is modified; the checks are those of R155 in its order. -/

namespace Sys2Proof.Machine

/-- LDB: x[Rst] <- sext(MemRead(x[RsB], 1)) (42_load_store.md R150). -/
def execLdb (rst rsA rsB : Reg) (s : State) : Host.Outcome State Fault Refusal :=
  s.perform fun m => withFixedField (.ldb rst rsA rsB) (
    match m.loadByte (m.effectiveAddr rsB) with
    | .ok b => .ok (m.setReg rst (b.signExtend s.xlen.bits))
    | .error f => .error f)

/-- STB: MemWrite(x[RsB], 1, x[RsA][7:0]); no register is written (42_load_store.md R151). -/
def execStb (rst rsA rsB : Reg) (s : State) : Host.Outcome State Fault Refusal :=
  s.perform fun m => withFixedField (.stb rst rsA rsB) (
    m.storeByte (m.effectiveAddr rsB) ((m.reg rsA).extractLsb' 0 8))

/-- LDW: x[Rst] <- MemRead(x[RsB], WBYTES), or the input port's value (42_load_store.md R152). -/
def execLdw (rst rsA rsB : Reg) (s : State) : Host.Outcome State Fault Refusal :=
  s.perform fun m => withFixedField (.ldw rst rsA rsB) (
    match m.loadWord (m.effectiveAddr rsB) with
    | .ok (v, m') => .ok (m'.setReg rst v)
    | .error f => .error f)

/-- STW: MemWrite(x[RsB], WBYTES, x[RsA]), or an event of the output port; no register is written
(42_load_store.md R153). -/
def execStw (rst rsA rsB : Reg) (s : State) : Host.Outcome State Fault Refusal :=
  s.perform fun m => withFixedField (.stw rst rsA rsB) (
    m.storeWord (m.effectiveAddr rsB) (m.reg rsA))

end Sys2Proof.Machine
end

