-- ==== Sys2Proof/Machine/Shift.lean ====
section
/-! DEFINITION. The shift class: LSR and ASR, by exactly one bit; the bit shifted out is lost (41_shift.md). -/

namespace Sys2Proof.Machine

/-- The shape of the class: with the RsB field r0, write a shifted x[RsA] to x[Rst] (41_shift.md R140, R141). -/
def State.shift (s : State) (i : Instr) (rst rsA : Reg) (by1 : Word s.xlen → Word s.xlen) :
    Host.Outcome State Fault Refusal :=
  s.perform fun m => withFixedField i (.ok (m.setReg rst (by1 (m.reg rsA))))

/-- LSR: x[Rst] <- 0 ++ x[RsA][XLEN-1:1] (41_shift.md R140). -/
def execLsr (rst rsA rsB : Reg) (s : State) : Host.Outcome State Fault Refusal :=
  s.shift (.lsr rst rsA rsB) rst rsA fun v => v >>> 1

/-- ASR: x[Rst] <- x[RsA][XLEN-1] ++ x[RsA][XLEN-1:1] (41_shift.md R141). -/
def execAsr (rst rsA rsB : Reg) (s : State) : Host.Outcome State Fault Refusal :=
  s.shift (.asr rst rsA rsB) rst rsA fun v => v.sshiftRight 1

end Sys2Proof.Machine
end

