-- ==== Sys2Proof/Machine/System.lean ====
section
/-! DEFINITION. HCF, the word of the simulator platform that ends a run (45_pseudo_operations.md R200; log 11). -/

namespace Sys2Proof.Machine

/-- Set the run status. -/
def Mach.setStatus {x : Xlen} (m : Mach x) (st : RunStatus) : Mach x := { m with status := st }

/-- HCF: halt. The run status becomes Halted; no register, memory or output changes, and pc stays at the address of the
HCF word + 2 (45_pseudo_operations.md R200). -/
def execHcf (s : State) : Host.Outcome State Fault Refusal :=
  s.perform fun m => .ok (m.setStatus .halted)

end Sys2Proof.Machine
end

