-- ==== Sys2Proof/Machine/Dispatch.lean ====
section
/-! DEFINITION. exec: the meaning of every instruction of the opcode table, one arm per constructor. -/

namespace Sys2Proof.Machine

def exec (i : Instr) (s : State) : Host.Outcome State Fault Refusal :=
  match i with
  | .andR rst rsA rsB => Sys2Proof.Machine.execAndR rst rsA rsB s
  | .andI rst imm => Sys2Proof.Machine.execAndI rst imm s
  | .orR rst rsA rsB => Sys2Proof.Machine.execOrR rst rsA rsB s
  | .orI rst imm => Sys2Proof.Machine.execOrI rst imm s
  | .xorR rst rsA rsB => Sys2Proof.Machine.execXorR rst rsA rsB s
  | .xorI rst imm => Sys2Proof.Machine.execXorI rst imm s
  | .sltR rst rsA rsB => Sys2Proof.Machine.execSltR rst rsA rsB s
  | .sltI rst imm => Sys2Proof.Machine.execSltI rst imm s
  | .sltuR rst rsA rsB => Sys2Proof.Machine.execSltuR rst rsA rsB s
  | .sltuI rst imm => Sys2Proof.Machine.execSltuI rst imm s
  | .addR rst rsA rsB => Sys2Proof.Machine.execAddR rst rsA rsB s
  | .addI rst imm => Sys2Proof.Machine.execAddI rst imm s
  | .subR rst rsA rsB => Sys2Proof.Machine.execSubR rst rsA rsB s
  | .subI rst imm => Sys2Proof.Machine.execSubI rst imm s
  | .ldr rst imm => Sys2Proof.Machine.execLdr rst imm s
  | .ldc rst imm => Sys2Proof.Machine.execLdc rst imm s
  | .lsr rst rsA rsB => Sys2Proof.Machine.execLsr rst rsA rsB s
  | .asr rst rsA rsB => Sys2Proof.Machine.execAsr rst rsA rsB s
  | .ldb rst rsA rsB => Sys2Proof.Machine.execLdb rst rsA rsB s
  | .stb rst rsA rsB => Sys2Proof.Machine.execStb rst rsA rsB s
  | .ldw rst rsA rsB => Sys2Proof.Machine.execLdw rst rsA rsB s
  | .stw rst rsA rsB => Sys2Proof.Machine.execStw rst rsA rsB s
  | .bezR rst rsA rsB => Sys2Proof.Machine.execBezR rst rsA rsB s
  | .bezRAlias rst rsA rsB => Sys2Proof.Machine.execBezRAlias rst rsA rsB s
  | .bezI rst imm => Sys2Proof.Machine.execBezI rst imm s
  | .bnzR rst rsA rsB => Sys2Proof.Machine.execBnzR rst rsA rsB s
  | .bnzRAlias rst rsA rsB => Sys2Proof.Machine.execBnzRAlias rst rsA rsB s
  | .bnzI rst imm => Sys2Proof.Machine.execBnzI rst imm s
  | .hcf => Sys2Proof.Machine.execHcf s

end Sys2Proof.Machine
end

