-- ==== Sys2Proof/Machine/Step.lean ====
section
/-! DEFINITION. One step of the machine (20_memory.md R61), and placing the word that the next step fetches. -/

namespace Sys2Proof.Machine

/-- One step of a running machine: fetch and decode at pc, move pc past the instruction, run it, count it. A run that
has halted stays as it is (log 11), one that has faulted stays faulted (60_exceptions.md R262; log 12). -/
def step (s : State) : Host.Outcome State Fault Refusal :=
  match s.mach.status with
  | .running =>
    match s.mach.fetchInstr with
    | .ok i => State.retire (exec i s.advance)
    | .error f => .fault f
  | .halted => .next s
  | .faulted f => .fault f

/-- The state with an instruction of the opcode table stored where the next step fetches, as if the loader had placed
it there (70_reset_and_hazards.md R301; log 5). -/
def State.withFetchWord (s : State) (nbits w : Nat) : State :=
  { s with mach := s.mach.placeWord (tableWord nbits w) }

end Sys2Proof.Machine
end

