-- ==== Sys2Proof/Machine/Loader.lean ====
section
/-! DEFINITION. The object code and its load into memory, which happens outside the machine before the first step
(30_encoding.md R97, 70_reset_and_hazards.md R301; log 5, log 24, log 25). -/

namespace Sys2Proof.Machine

/-- An object code image: 16-bit words at their addresses (70_reset_and_hazards.md R301). -/
abbrev Image := List (Nat × InstrWord)

/-- Whether no address occurs twice. -/
def distinctAddrs : List Nat → Bool
  | [] => true
  | a :: rest => !(rest.contains a) && distinctAddrs rest

/-- The requirements on an image: every address even and below MEM_SIZE - 1, none twice (70_reset_and_hazards.md R301). -/
def Image.ok (x : Xlen) (img : Image) : Bool :=
  img.all (fun c => c.1 % 2 == 0 && decide (c.1 + 1 < Config.memSize x)) && distinctAddrs (img.map Prod.fst)

/-- Store each word of an image big-endian at its address (70_reset_and_hazards.md R301). -/
def Memory.load : Memory → Image → Memory
  | mem, [] => mem
  | mem, (a, w) :: rest => Memory.load (mem.writeBytes a (wordBytes w)) rest

/-- The machine of the variant x at the start of a run of an image; an image that does not meet the requirements is no
initial state (70_reset_and_hazards.md R300, R301). -/
def Mach.boot (x : Xlen) (img : Image) : Option (Mach x) :=
  if img.ok x then some { Mach.reset x with mem := Memory.load [] img } else none

/-- The value of a hexadecimal digit. That a capital is read too is the model's choice (log 25). -/
def hexDigit (c : Char) : Option Nat :=
  let n := c.toNat
  if 48 ≤ n ∧ n ≤ 57 then some (n - 48)
  else if 97 ≤ n ∧ n ≤ 102 then some (n - 87)
  else if 65 ≤ n ∧ n ≤ 70 then some (n - 55)
  else none

/-- The value of hexadecimal digits, the most significant first. -/
def hexValue (acc : Nat) : List Char → Option Nat
  | [] => some acc
  | c :: cs =>
    match hexDigit c with
    | some d => hexValue (16 * acc + d) cs
    | none => none

/-- How many hexadecimal digits the address of an object code line has: four for the 16-bit tools (30_encoding.md R97).
For 32 bits the manual shows no object file and the spec assumes a wider address (70_reset_and_hazards.md R301); that it
has eight digits is the model's choice (log 25, DESIGN CHOICE). -/
def addrDigits : Xlen → Nat
  | .x16 => 4
  | .x32 => 8

/-- One line of object code: the digits of the address, one space, four digits of the word (30_encoding.md R97,
70_reset_and_hazards.md R301). A line with the error pattern is not of this form. -/
def parseObjectLine (x : Xlen) (line : List Char) : Option (Nat × InstrWord) :=
  match line.drop (addrDigits x) with
  | [' ', e, f, g, h] =>
    match hexValue 0 (line.take (addrDigits x)), hexValue 0 [e, f, g, h] with
    | some addr, some w => some (addr, BitVec.ofNat 16 w)
    | _, _ => none
  | _ => none

/-- A whole object file, line by line; one bad line rejects the file (30_encoding.md R97, 92_eei_decisions.md D27). -/
def parseObject (x : Xlen) : List (List Char) → Option Image
  | [] => some []
  | l :: ls =>
    match parseObjectLine x l, parseObject x ls with
    | some c, some img => some (c :: img)
    | _, _ => none

/-- The start of a run of an object file given as its lines: none where a line is bad or the image is not proper
(70_reset_and_hazards.md R301). -/
def Mach.bootObject (x : Xlen) (lines : List (List Char)) : Option (Mach x) :=
  match parseObject x lines with
  | some img => Mach.boot x img
  | none => none

/-- The digit character of a value below 16, in lower case as the listings print it. -/
def hexChar (n : Nat) : Char := Char.ofNat (if n < 10 then 48 + n else 87 + n)

/-- The low hexadecimal digits of a number, a given count of them, the most significant first. -/
def hexDigits : Nat → Nat → List Char
  | 0, _ => []
  | k + 1, n => hexDigits k (n / 16) ++ [hexChar (n % 16)]

/-- The object code line of a word (30_encoding.md R97, 70_reset_and_hazards.md R301). -/
def objectLine (x : Xlen) (c : Nat × InstrWord) : List Char :=
  hexDigits (addrDigits x) c.1 ++ [' '] ++ hexDigits 4 c.2.toNat

/-- A whole image as object code, one line for each word (30_encoding.md R97). -/
def Image.objectCode (x : Xlen) (img : Image) : List (List Char) := img.map (objectLine x)

/-! ## What the host prints -/

/-- The text the host renders an output event as: OutChar the one character whose code is v[7:0], OutInt the signed
decimal numeral (60_exceptions.md R268, R269; log 20). -/
def OutEvent.render {x : Xlen} : OutEvent x → List Char
  | .outChar v => [Char.ofNat (v.toNat % 256)]
  | .outInt v => if v.toInt < 0 then '-' :: Nat.toDigits 10 v.toInt.natAbs else Nat.toDigits 10 v.toInt.natAbs

/-- The text of a whole output trace. -/
def Mach.renderedOutput {x : Xlen} (m : Mach x) : List Char := m.output.flatMap OutEvent.render

end Sys2Proof.Machine
end

