-- ==== Sys2Proof/Machine/Pseudo.lean ====
section
/-! DEFINITION. The pseudo-operations and the push and pop patterns as sequences of instructions, for the 16-bit
assembler (45_pseudo_operations.md R201 to R242, 44_calling_convention.md R191; log 23). -/

namespace Sys2Proof.Machine

/-- A pseudo-operation. The constants of type κ are numbers or labels, each with a 16-bit value. -/
inductive Pseudo (κ : Type) where
  /-- nop (R201) -/
  | nop
  /-- not r (R202) -/
  | not (r : Reg)
  /-- neg r (R203) -/
  | neg (r : Reg)
  /-- lsr d,a (R204) -/
  | lsr (d a : Reg)
  /-- asr d,a (R205) -/
  | asr (d a : Reg)
  /-- lsl d,a (R206) -/
  | lsl (d a : Reg)
  /-- ldi r,const (R207) -/
  | ldi (r : Reg) (c : κ)
  /-- bez r,t with a target register (R208) -/
  | bez (r t : Reg)
  /-- bez r,addr with a label (R208) -/
  | bezTo (r : Reg) (addr : κ)
  /-- bnz r,t with a target register (R209) -/
  | bnz (r t : Reg)
  /-- bnz r,addr with a label (R209) -/
  | bnzTo (r : Reg) (addr : κ)
  /-- ldb r,b with a base register (R210) -/
  | ldb (r b : Reg)
  /-- ldb r,addr with a label (R210) -/
  | ldbAt (r : Reg) (addr : κ)
  /-- stb r,b with a base register (R211) -/
  | stb (r b : Reg)
  /-- stb r,addr with a label (R211) -/
  | stbAt (r : Reg) (addr : κ)
  /-- ldw r,b with a base register (R212) -/
  | ldw (r b : Reg)
  /-- ldw r,addr with a label (R212) -/
  | ldwAt (r : Reg) (addr : κ)
  /-- stw r,b with a base register (R213) -/
  | stw (r b : Reg)
  /-- stw r,addr with a label (R213) -/
  | stwAt (r : Reg) (addr : κ)
  /-- lsrm r,n (R214) -/
  | lsrm (r n : Reg)
  /-- asrm r,n (R215) -/
  | asrm (r n : Reg)
  /-- lslm r,n (R216; 90_conflicts.md C4) -/
  | lslm (r n : Reg)
  /-- seq d,a,b (R217) -/
  | seq (d a b : Reg)
  /-- sne d,a,b (R218) -/
  | sne (d a b : Reg)
  /-- sge d,a,b (R219) -/
  | sge (d a b : Reg)
  /-- sgeu d,a,b (R220) -/
  | sgeu (d a b : Reg)
  /-- beq a,b,addr (R221) -/
  | beq (a b : Reg) (addr : κ)
  /-- bne a,b,addr (R222) -/
  | bne (a b : Reg) (addr : κ)
  /-- blt a,b,addr (R223) -/
  | blt (a b : Reg) (addr : κ)
  /-- bge a,b,addr (R224) -/
  | bge (a b : Reg) (addr : κ)
  /-- bltu a,b,addr (R225) -/
  | bltu (a b : Reg) (addr : κ)
  /-- bgeu a,b,addr (R226) -/
  | bgeu (a b : Reg) (addr : κ)
  /-- sgt d,a,b (R227) -/
  | sgt (d a b : Reg)
  /-- sle d,a,b (R228) -/
  | sle (d a b : Reg)
  /-- sgtu d,a,b (R229) -/
  | sgtu (d a b : Reg)
  /-- sleu d,a,b (R230) -/
  | sleu (d a b : Reg)
  /-- bgt a,b,addr (R231) -/
  | bgt (a b : Reg) (addr : κ)
  /-- ble a,b,addr (R232) -/
  | ble (a b : Reg) (addr : κ)
  /-- bgtu a,b,addr (R233) -/
  | bgtu (a b : Reg) (addr : κ)
  /-- bleu a,b,addr (R234) -/
  | bleu (a b : Reg) (addr : κ)
  /-- jmp addr (R235) -/
  | jmp (addr : κ)
  /-- jal addr (R236) -/
  | jal (addr : κ)
  /-- jmpr r (R237) -/
  | jmpr (r : Reg)
  /-- jalr r (R238) -/
  | jalr (r : Reg)
  /-- ret (R239) -/
  | ret
  /-- mul, div or rem d,a,b: a call of the routine at addr, which is mulsi3, divsi3 or modsi3 (R240; 90_conflicts.md C5) -/
  | arith (d a b : Reg) (addr : κ)
  /-- PUSH r, the pattern of 44_calling_convention.md R191 -/
  | push (r : Reg)
  /-- POP r, the pattern of 44_calling_convention.md R191 -/
  | pop (r : Reg)
deriving DecidableEq, Repr

/-- ASM_BRANCH_OP2: which encoding of the register branches an assembler emits (30_encoding.md R85,
92_eei_decisions.md D8). -/
inductive AsmBranchOp2 where
  | op2_11
  | op2_00
deriving DecidableEq, Repr

/-- bez r0,a,b in the chosen encoding. -/
def asmBez : AsmBranchOp2 → Reg → Reg → Instr
  | .op2_11, a, b => .bezR .r0 a b
  | .op2_00, a, b => .bezRAlias .r0 a b

/-- bnz r0,a,b in the chosen encoding. -/
def asmBnz : AsmBranchOp2 → Reg → Reg → Instr
  | .op2_11, a, b => .bnzR .r0 a b
  | .op2_00, a, b => .bnzRAlias .r0 a b

/-- ldi r,const on 16 bits: two LDC, the most significant byte first (R207). -/
def expandLdi (r : Reg) (c : BitVec 16) : List Instr := [.ldc r (c.extractLsb' 8 8), .ldc r (c.extractLsb' 0 8)]

/-- sub sp,2 / stw r0,r,sp: the push the appendices and R240 write (44_calling_convention.md R191). -/
def expandSubPush (r : Reg) : List Instr := [.subI .sp 2, .stw .r0 r .sp]

/-- The set-if-greater-or-equal pattern over a comparison: 1 minus the comparison (R219, R220). -/
def expandNotSet (compare : Instr) (d : Reg) : List Instr := [compare, .ldr .at_ 1, .subR d .at_ d]

/-- The compare-and-branch pattern: load the address into at, compare into the first operand, branch (R221 to R226). -/
def expandCompareBranch (addr : BitVec 16) (compare branch : Instr) : List Instr :=
  expandLdi .at_ addr ++ [compare, branch]

/-- The instructions a pseudo-operation stands for, at the address here, with the constants' values (R201 to R240).
A return address is that of the instruction after the branch (R236, R238, R240). -/
def Pseudo.expand {κ : Type} (val : κ → BitVec 16) (o : AsmBranchOp2) (here : BitVec 16) : Pseudo κ → List Instr
  | .nop => [.andR .r0 .r0 .r0]
  | .not r => [.xorI r 0xff]
  | .neg r => [.xorI r 0xff, .addI r 1]
  | .lsr d a => [.lsr d a .r0]
  | .asr d a => [.asr d a .r0]
  | .lsl d a => [.addR d a a]
  | .ldi r c => expandLdi r (val c)
  | .bez r t => [asmBez o r t]
  | .bezTo r addr => expandLdi .at_ (val addr) ++ [asmBez o r .at_]
  | .bnz r t => [asmBnz o r t]
  | .bnzTo r addr => expandLdi .at_ (val addr) ++ [asmBnz o r .at_]
  | .ldb r b => [.ldb r .r0 b]
  | .ldbAt r addr => expandLdi .at_ (val addr) ++ [.ldb r .r0 .at_]
  | .stb r b => [.stb .r0 r b]
  | .stbAt r addr => expandLdi .at_ (val addr) ++ [.stb .r0 r .at_]
  | .ldw r b => [.ldw r .r0 b]
  | .ldwAt r addr => expandLdi .at_ (val addr) ++ [.ldw r .r0 .at_]
  | .stw r b => [.stw .r0 r b]
  | .stwAt r addr => expandLdi .at_ (val addr) ++ [.stw .r0 r .at_]
  | .lsrm r n => [.lsr r r .r0, .subI n 1, .bnzI n 0xfa]
  | .asrm r n => [.asr r r .r0, .subI n 1, .bnzI n 0xfa]
  | .lslm r n => [.addR r r r, .subI n 1, .bnzI n 0xfa]
  | .seq d a b => [.subR d a b, .sltuI d 1]
  | .sne d a b => [.subR d a b, .xorR .at_ .at_ .at_, .sltuR d .at_ d]
  | .sge d a b => expandNotSet (.sltR d a b) d
  | .sgeu d a b => expandNotSet (.sltuR d a b) d
  | .beq a b addr => expandCompareBranch (val addr) (.subR a a b) (asmBez o a .at_)
  | .bne a b addr => expandCompareBranch (val addr) (.subR a a b) (asmBnz o a .at_)
  | .blt a b addr => expandCompareBranch (val addr) (.sltR a a b) (asmBnz o a .at_)
  | .bge a b addr => expandCompareBranch (val addr) (.sltR a a b) (asmBez o a .at_)
  | .bltu a b addr => expandCompareBranch (val addr) (.sltuR a a b) (asmBnz o a .at_)
  | .bgeu a b addr => expandCompareBranch (val addr) (.sltuR a a b) (asmBez o a .at_)
  | .sgt d a b => [.sltR d b a]
  | .sle d a b => expandNotSet (.sltR d b a) d
  | .sgtu d a b => [.sltuR d b a]
  | .sleu d a b => expandNotSet (.sltuR d b a) d
  | .bgt a b addr => expandCompareBranch (val addr) (.sltR b b a) (asmBnz o b .at_)
  | .ble a b addr => expandCompareBranch (val addr) (.sltR b b a) (asmBez o b .at_)
  | .bgtu a b addr => expandCompareBranch (val addr) (.sltuR b b a) (asmBnz o b .at_)
  | .bleu a b addr => expandCompareBranch (val addr) (.sltuR b b a) (asmBez o b .at_)
  | .jmp addr => expandLdi .at_ (val addr) ++ [asmBnz o .sp .at_]
  | .jal addr => expandLdi .at_ (val addr) ++ expandLdi .lr (here + 10) ++ [asmBnz o .sp .at_]
  | .jmpr r => [asmBnz o .sp r]
  | .jalr r => expandLdi .lr (here + 6) ++ [asmBnz o .sp r]
  | .ret => [asmBnz o .sp .lr]
  | .arith d a b addr =>
    expandSubPush a ++ expandSubPush b ++ expandSubPush .lr ++ expandLdi .lr (here + 22) ++ expandLdi .sr (val addr) ++
      [asmBnz o .sp .sr, .ldw .lr .r0 .sp, .addI .sp 6, .andR d .sr .sr]
  | .push r => [.addI .sp 0xfe, .stw .r0 r .sp]
  | .pop r => [.ldw r .r0 .sp, .addI .sp 2]

/-- The words an expansion takes; it does not depend on the constants (30_encoding.md R96, R242). -/
def Pseudo.size {κ : Type} (p : Pseudo κ) : Nat := (p.expand (fun _ => 0) .op2_11 0).length

end Sys2Proof.Machine
end

