-- ==== Sys2Proof/Machine/Assembler.lean ====
section
/-! DEFINITION. The assembly language and the 16-bit assembler: source text to object code (30_encoding.md R92 to R97;
log 23, log 26). It is a tool of the reference platform; the machine does not use it. -/

namespace Sys2Proof.Machine

/-! ## Source lines and the three passes (R96) -/

/-- A constant operand: a number or a label (45_pseudo_operations.md R207). -/
inductive Const where
  | num (n : Int)
  | label (name : List Char)
deriving DecidableEq, Repr

/-- One source line (30_encoding.md R94). -/
inductive AsmLine where
  /-- a label at the left margin with no parameters: an address -/
  | label (name : List Char)
  | instr (i : Instr)
  | pseudo (p : Pseudo Const)
  /-- an integer structure: one value or a vector of them -/
  | ints (values : List Int)
  /-- a byte structure: a string -/
  | text (bytes : List Byte)
  /-- a line that is none of these: an assembly error (30_encoding.md R97) -/
  | bad
deriving DecidableEq, Repr

/-- The labels met so far with their addresses. -/
abbrev Symbols := List (List Char × Nat)

/-- The address of a label. Where a source declares a label twice, which R94 to R96 say nothing of (93_implementation_defined.md
U15), the first declaration counts: the model's choice (log 26, DESIGN CHOICE). -/
def Symbols.find? (tab : Symbols) (name : List Char) : Option Nat :=
  match tab with
  | [] => none
  | (n, a) :: rest => if n = name then some a else Symbols.find? rest name

/-- The constant a pseudo-operation refers to, if it has one. -/
def Pseudo.const? {κ : Type} : Pseudo κ → Option κ
  | .ldi _ c | .bezTo _ c | .bnzTo _ c | .ldbAt _ c | .stbAt _ c | .ldwAt _ c | .stwAt _ c => some c
  | .beq _ _ c | .bne _ _ c | .blt _ _ c | .bge _ _ c | .bltu _ _ c | .bgeu _ _ c => some c
  | .bgt _ _ c | .ble _ _ c | .bgtu _ _ c | .bleu _ _ c | .jmp c | .jal c | .arith _ _ _ c => some c
  | _ => none

/-- The 16 bits of a constant: a number modulo 2^16, or the address of a label; 0 for a label that has none, which
AsmLine.defined refuses. -/
def Const.value (tab : Symbols) : Const → BitVec 16
  | .num n => BitVec.ofInt 16 n
  | .label name => BitVec.ofNat 16 ((tab.find? name).getD 0)

/-- Whether a constant is a number or a known label. -/
def Const.defined (tab : Symbols) : Const → Bool
  | .num _ => true
  | .label name => (tab.find? name).isSome

/-- Whether a line can be assembled: its instruction is well formed (70_reset_and_hazards.md R308), its label known. -/
def AsmLine.defined (tab : Symbols) : AsmLine → Bool
  | .label _ | .ints _ | .text _ => true
  | .bad => false
  | .instr i => decide i.WellFormed
  | .pseudo p => match p.const? with
    | some c => c.defined tab
    | none => true

/-- The bytes of a string in memory: the text, one zero byte, and a second one where needed to reach an even length
(30_encoding.md R95; the padding is the convention of 95_test_vectors.md, log 23). -/
def stringBytes (bytes : List Byte) : List Byte :=
  if bytes.length % 2 = 0 then bytes ++ [0, 0] else bytes ++ [0]

/-- Two bytes a word, the first the most significant. -/
def packBytes : List Byte → List InstrWord
  | hi :: lo :: rest => (hi ++ lo) :: packBytes rest
  | [b] => [b ++ 0#8]
  | [] => []

/-- The words of a line at an address (30_encoding.md R95, R96). -/
def AsmLine.words (tab : Symbols) (o : AsmBranchOp2) (here : Nat) : AsmLine → List InstrWord
  | .label _ | .bad => []
  | .instr i => [encode i]
  | .pseudo p => (p.expand (Const.value tab) o (BitVec.ofNat 16 here)).map encode
  | .ints vs => vs.map (BitVec.ofInt 16)
  | .text bs => packBytes (stringBytes bs)

/-- The bytes a line takes; label values do not depend on constants (30_encoding.md R96). -/
def AsmLine.size : AsmLine → Nat
  | .label _ | .bad => 0
  | .instr _ => 2
  | .pseudo p => 2 * p.size
  | .ints vs => 2 * vs.length
  | .text bs => (stringBytes bs).length

/-- Pass 2: the labels and their addresses (30_encoding.md R96). -/
def symbolsFrom (here : Nat) : List AsmLine → Symbols
  | [] => []
  | .label n :: rest => (n, here) :: symbolsFrom here rest
  | l :: rest => symbolsFrom (here + l.size) rest

/-- Words at consecutive addresses. -/
def placeFrom (here : Nat) : List InstrWord → Image
  | [] => []
  | w :: ws => (here, w) :: placeFrom (here + 2) ws

/-- Pass 3: the object code, line by line (30_encoding.md R96, R97). -/
def emitFrom (tab : Symbols) (o : AsmBranchOp2) (here : Nat) : List AsmLine → Image
  | [] => []
  | l :: rest => placeFrom here (l.words tab o here) ++ emitFrom tab o (here + l.size) rest

/-- Assemble a program from address 0; none where a line cannot be assembled. -/
def assemble (o : AsmBranchOp2) (src : List AsmLine) : Option Image :=
  let tab := symbolsFrom 0 src
  if src.all (AsmLine.defined tab) then some (emitFrom tab o 0 src) else none

/-! ## Source text (R92 to R94) -/

/-- Split at every character of a kind. -/
def splitText (sep : Char → Bool) : List Char → List (List Char)
  | [] => [[]]
  | c :: cs =>
    if sep c then [] :: splitText sep cs
    else
      match splitText sep cs with
      | w :: ws => (c :: w) :: ws
      | [] => [[c]]

/-- The value of digits in a base. -/
def digitsValue (base acc : Nat) : List Char → Option Nat
  | [] => some acc
  | c :: cs =>
    match hexDigit c with
    | some d => if d < base then digitsValue base (base * acc + d) cs else none
    | none => none

/-- A number without sign: hexadecimal 0x, octal 0o, binary 0b or decimal (30_encoding.md R93). -/
def parseNat : List Char → Option Nat
  | '0' :: 'x' :: d :: ds => digitsValue 16 0 (d :: ds)
  | '0' :: 'o' :: d :: ds => digitsValue 8 0 (d :: ds)
  | '0' :: 'b' :: d :: ds => digitsValue 2 0 (d :: ds)
  | d :: ds => digitsValue 10 0 (d :: ds)
  | [] => none

/-- A number, negative ones with a leading minus (30_encoding.md R93). The manual shows the minus on decimal numbers only;
that it is read before 0x, 0o and 0b too is the model's choice (log 26, DESIGN CHOICE). -/
def parseInt : List Char → Option Int
  | '-' :: ds => (parseNat ds).map fun n => -(n : Int)
  | ds => (parseNat ds).map fun n => (n : Int)

/-- A register name or one of its other names (10_state.md R23, 30_encoding.md R92). -/
def parseReg : List Char → Option Reg
  | ['r', '0'] | ['a', 't'] => some .r0
  | ['r', '1'] => some .r1
  | ['r', '2'] => some .r2
  | ['r', '3'] => some .r3
  | ['r', '4'] => some .r4
  | ['r', '5'] | ['s', 'r'] => some .r5
  | ['r', '6'] | ['l', 'r'] => some .r6
  | ['r', '7'] | ['s', 'p'] => some .r7
  | _ => none

/-- An operand of an instruction. -/
inductive AsmOperand where
  | reg (r : Reg)
  | num (n : Int)
  | label (name : List Char)
deriving DecidableEq, Repr

/-- A register, else a number, else a label (30_encoding.md R92). A label may be declared with the name of a register or
with the text of a number, of which the manual says nothing: an operand of that text is then the register or the number,
never the label. This order is the model's choice (log 26, DESIGN CHOICE). -/
def parseOperand (cs : List Char) : AsmOperand :=
  match parseReg cs with
  | some r => .reg r
  | none =>
    match parseInt cs with
    | some n => .num n
    | none => .label cs

/-- Look a name up in a table. -/
def lookupName {α : Type} (name : List Char) : List (String × α) → Option α
  | [] => none
  | (k, v) :: rest => if k.toList = name then some v else lookupName name rest

/-- Forms with three registers (30_encoding.md R92). -/
def threeRegForms (o : AsmBranchOp2) : List (String × (Reg → Reg → Reg → Instr)) :=
  [("and", .andR), ("or", .orR), ("xor", .xorR), ("slt", .sltR), ("sltu", .sltuR), ("add", .addR), ("sub", .subR),
   ("lsr", .lsr), ("asr", .asr), ("ldb", .ldb), ("stb", .stb), ("ldw", .ldw), ("stw", .stw),
   ("bez", match o with | .op2_11 => .bezR | .op2_00 => .bezRAlias),
   ("bnz", match o with | .op2_11 => .bnzR | .op2_00 => .bnzRAlias)]

/-- Forms with a register and a number (30_encoding.md R92). -/
def regNumForms : List (String × (Reg → BitVec 8 → Instr)) :=
  [("and", .andI), ("or", .orI), ("xor", .xorI), ("slt", .sltI), ("sltu", .sltuI), ("add", .addI), ("sub", .subI),
   ("ldr", .ldr), ("ldc", .ldc), ("bez", .bezI), ("bnz", .bnzI)]

/-- Pseudo-operations with two registers (45_pseudo_operations.md R204 to R216). -/
def twoRegForms : List (String × (Reg → Reg → Pseudo Const)) :=
  [("lsr", .lsr), ("asr", .asr), ("lsl", .lsl), ("bez", .bez), ("bnz", .bnz), ("ldb", .ldb), ("stb", .stb),
   ("ldw", .ldw), ("stw", .stw), ("lsrm", .lsrm), ("asrm", .asrm), ("lslm", .lslm)]

/-- Pseudo-operations with a register and a label (45_pseudo_operations.md R207 to R213). -/
def regLabelForms : List (String × (Reg → Const → Pseudo Const)) :=
  [("ldi", .ldi), ("bez", .bezTo), ("bnz", .bnzTo), ("ldb", .ldbAt), ("stb", .stbAt), ("ldw", .ldwAt), ("stw", .stwAt)]

/-- Pseudo-operations with one register (45_pseudo_operations.md R202, R203). -/
def oneRegForms : List (String × (Reg → Pseudo Const)) := [("not", .not), ("neg", .neg)]

/-- Forms with no operand (45_pseudo_operations.md R200, R201). -/
def noOperandForms : List (String × AsmLine) := [("nop", .pseudo .nop), ("hcf", .instr .hcf)]

/-- An instruction line from its mnemonic and operands; the operands choose the form (30_encoding.md R92, R93: the
encoded field is the low 8 bits of the number). The mnemonics of R217 to R240 are not accepted. -/
def selectForm (o : AsmBranchOp2) (mn : List Char) : List AsmOperand → Option AsmLine
  | [] => lookupName mn noOperandForms
  | [.reg r] => (lookupName mn oneRegForms).map fun f => .pseudo (f r)
  | [.reg d, .reg a] => (lookupName mn twoRegForms).map fun f => .pseudo (f d a)
  | [.reg d, .reg a, .reg b] => (lookupName mn (threeRegForms o)).map fun f => .instr (f d a b)
  | [.reg d, .num n] =>
    if mn = "ldi".toList then some (.pseudo (.ldi d (.num n)))
    else (lookupName mn regNumForms).map fun f => .instr (f d (BitVec.ofInt 8 n))
  | [.reg d, .label l] => (lookupName mn regLabelForms).map fun f => .pseudo (f d (.label l))
  | _ => none

/-- The parameters of an instruction, separated by commas (30_encoding.md R94 rule 5). -/
def parseOperands (cs : List Char) : List AsmOperand :=
  match cs with
  | [] => []
  | _ => (splitText (· == ',') cs).map parseOperand

/-- The characters of a string up to its closing quote, with the escape for a line feed (30_encoding.md R95); nothing
may follow the quote. "Apenas caracteres da língua inglesa são reconhecidos" (R94 rule 1) and what another character does
is left open (93_implementation_defined.md U15): that one stands here for the low 8 bits of its code is the model's choice
(log 26, DESIGN CHOICE). -/
def parseString : List Char → Option (List Byte)
  | ['"'] => some []
  | '\\' :: 'n' :: cs => (parseString cs).map fun bs => 10#8 :: bs
  | c :: cs => if c = '"' then none else (parseString cs).map fun bs => BitVec.ofNat 8 c.toNat :: bs
  | [] => none

/-- Every element of a list read, or none. -/
def readAll {α β : Type} (read : α → Option β) : List α → Option (List β)
  | [] => some []
  | a :: rest =>
    match read a, readAll read rest with
    | some b, some bs => some (b :: bs)
    | _, _ => none

/-- The data of a data structure: a string, or numbers separated by one space (30_encoding.md R94 rules 7 and 8). The
syntax of a byte structure other than a quoted string is missing (91_not_in_source.md N18): that only a quoted string is
one, and numbers always integers, is the model's choice (log 26, DESIGN CHOICE). -/
def parseData : List Char → Option AsmLine
  | '"' :: cs => (parseString cs).map .text
  | cs => (readAll parseInt (splitText (· == ' ') cs)).map .ints

/-- Whether a character separates two fields of a line: one space or one tab (30_encoding.md R94 rule 4). -/
def isFieldGap (c : Char) : Bool := c == ' ' || c == '\t'

/-- The text before the first field gap and the text after it. -/
def splitField : List Char → List Char × List Char
  | [] => ([], [])
  | c :: cs => if isFieldGap c then ([], cs) else let (w, rest) := splitField cs; (c :: w, rest)

/-- One line of source text: a comment at the left margin, an instruction after one tab, a label at the left margin
with or without data (30_encoding.md R94); any other line is an assembly error. What bad input does is left open
(93_implementation_defined.md U15). The model's choice (log 26, DESIGN CHOICE): a line that begins with a space is an
error, for it has no label; an empty line is accepted, a comment or a label with any characters at all, one space or tab
between a label and its data, and one with nothing after it. -/
def parseLine (o : AsmBranchOp2) : List Char → List AsmLine
  | [] => []
  | ';' :: _ => []
  | '\t' :: cs =>
    let (mn, rest) := splitField cs
    match selectForm o mn (parseOperands rest) with
    | some l => [l]
    | none => [.bad]
  | cs =>
    match splitField cs with
    | ([], _) => [.bad]
    | (name, []) => [.label name]
    | (name, rest) =>
      match parseData rest with
      | some d => [.label name, d]
      | none => [.bad]

/-- The text lines of a source file. -/
def sourceLines (src : List Char) : List (List Char) := splitText (· == '\n') src

/-- A whole source file. -/
def parseSource (o : AsmBranchOp2) (src : List Char) : List AsmLine := (sourceLines src).flatMap (parseLine o)

/-- The assembler: source text to an object code image; none on an assembly error (30_encoding.md R96, R97). -/
def assembleText (o : AsmBranchOp2) (src : List Char) : Option Image := assemble o (parseSource o src)

/-! ## The object file (R97) -/

/-- The pattern that the offending lines of the object code carry on an assembly error (30_encoding.md R97). -/
def errorPattern : List Char := "**** ????".toList

/-- The object code of a line at an address: a line of text for each word, or the error pattern where it cannot be
assembled. How many lines of the object file an offending source line gives the manual does not say: one is the model's
choice (log 26, DESIGN CHOICE). -/
def AsmLine.objectLines (tab : Symbols) (o : AsmBranchOp2) (here : Nat) (l : AsmLine) : List (List Char) :=
  if l.defined tab then (Image.objectCode .x16 (placeFrom here (l.words tab o here))) else [errorPattern]

/-- Pass 3 with its result as text, line by line (30_encoding.md R96, R97). -/
def objectFrom (tab : Symbols) (o : AsmBranchOp2) (here : Nat) : List AsmLine → List (List Char)
  | [] => []
  | l :: rest => l.objectLines tab o here ++ objectFrom tab o (here + l.size) rest

/-- The object file that the assembler writes for a source file, errors included (30_encoding.md R97). -/
def assembleObject (o : AsmBranchOp2) (src : List Char) : List (List Char) :=
  let ls := parseSource o src
  objectFrom (symbolsFrom 0 ls) o 0 ls

end Sys2Proof.Machine
end

