-- ==== Sys2Proof/Machine/Listing.lean ====
section
/-! DEFINITION. The listing that the assembler prints with the parameter debug: line numbers, labels, addresses, words and
the intermediate code (30_encoding.md R97, 95_test_vectors.md section 1.5). Of its form the spec shows the intermediate
code of one program and nothing else; what it does not show is the model's choice (log 27, DESIGN CHOICE). -/

namespace Sys2Proof.Machine

/-! ## Text of an instruction -/

/-- A register as the listing names it: by its other name where it has one (10_state.md R23). -/
def regText : Reg → List Char
  | .r0 => "at".toList
  | .r1 => "r1".toList
  | .r2 => "r2".toList
  | .r3 => "r3".toList
  | .r4 => "r4".toList
  | .r5 => "sr".toList
  | .r6 => "lr".toList
  | .r7 => "sp".toList

/-- The r0 of a fixed field, which is no use of at (30_encoding.md R76, R92). -/
def fixedText : List Char := "r0".toList

/-- An integer in decimal. -/
def intText (n : Int) : List Char :=
  if n < 0 then '-' :: Nat.toDigits 10 n.natAbs else Nat.toDigits 10 n.natAbs

/-- A mnemonic with two operands (30_encoding.md R92). -/
def twoOperandText (mn : String) (a b : List Char) : List Char := mn.toList ++ [' '] ++ a ++ [','] ++ b

/-- A mnemonic with three operands (30_encoding.md R92). -/
def threeOperandText (mn : String) (a b c : List Char) : List Char := twoOperandText mn a (b ++ [','] ++ c)

/-- A type R instruction with no fixed field. -/
def typeRText (mn : String) (d a b : Reg) : List Char := threeOperandText mn (regText d) (regText a) (regText b)

/-- A type I instruction whose immediate is sign-extended. -/
def signedText (mn : String) (d : Reg) (imm : BitVec 8) : List Char := twoOperandText mn (regText d) (intText imm.toInt)

/-- A type I instruction whose immediate is zero-extended. -/
def unsignedText (mn : String) (d : Reg) (imm : BitVec 8) : List Char :=
  twoOperandText mn (regText d) (intText imm.toNat)

/-- The native form of an instruction (30_encoding.md R92); HCF with the three registers the listing gives it (R97). -/
def instrText : Instr → List Char
  | .andR d a b => typeRText "and" d a b
  | .andI d imm => unsignedText "and" d imm
  | .orR d a b => typeRText "or" d a b
  | .orI d imm => unsignedText "or" d imm
  | .xorR d a b => typeRText "xor" d a b
  | .xorI d imm => signedText "xor" d imm
  | .sltR d a b => typeRText "slt" d a b
  | .sltI d imm => signedText "slt" d imm
  | .sltuR d a b => typeRText "sltu" d a b
  | .sltuI d imm => signedText "sltu" d imm
  | .addR d a b => typeRText "add" d a b
  | .addI d imm => signedText "add" d imm
  | .subR d a b => typeRText "sub" d a b
  | .subI d imm => signedText "sub" d imm
  | .ldr d imm => signedText "ldr" d imm
  | .ldc d imm => unsignedText "ldc" d imm
  | .lsr d a _ => threeOperandText "lsr" (regText d) (regText a) fixedText
  | .asr d a _ => threeOperandText "asr" (regText d) (regText a) fixedText
  | .ldb d _ b => threeOperandText "ldb" (regText d) fixedText (regText b)
  | .stb _ a b => threeOperandText "stb" fixedText (regText a) (regText b)
  | .ldw d _ b => threeOperandText "ldw" (regText d) fixedText (regText b)
  | .stw _ a b => threeOperandText "stw" fixedText (regText a) (regText b)
  | .bezR _ a b | .bezRAlias _ a b => threeOperandText "bez" fixedText (regText a) (regText b)
  | .bezI d imm => signedText "bez" d imm
  | .bnzR _ a b | .bnzRAlias _ a b => threeOperandText "bnz" fixedText (regText a) (regText b)
  | .bnzI d imm => signedText "bnz" d imm
  | .hcf => threeOperandText "hcf" fixedText fixedText fixedText

/-! ## Intermediate code -/

/-- A constant as the listing writes it: the name of a label, a number in decimal. -/
def Const.text : Const → List Char
  | .num n => intText n
  | .label name => name

/-- The constants of the ldi that a pseudo-operation's expansion holds, in order; a return address is a number
(45_pseudo_operations.md R236, R238, R240). -/
def Pseudo.ldiTexts (here : Nat) : Pseudo Const → List (List Char)
  | .jal c => [c.text, intText (here + 10)]
  | .jalr _ => [intText (here + 6)]
  | .arith _ _ _ c => [intText (here + 22), c.text]
  | p => (p.const?.map Const.text).toList

/-- The intermediate code of an expansion: each of its ldi as the pair ldc0, ldc1 with the whole constant
(30_encoding.md R97), every other instruction in its native form. An expansion has no LDC but those of an ldi
(45_pseudo_operations.md R207). -/
def intermediate : List (List Char) → List Instr → List (List Char)
  | c :: cs, .ldc d _ :: .ldc _ _ :: rest =>
    twoOperandText "ldc0" (regText d) c :: twoOperandText "ldc1" (regText d) c :: intermediate cs rest
  | cs, i :: rest => instrText i :: intermediate cs rest
  | _, [] => []

/-! ## Rows -/

/-- A row of the listing: the number of its source line, a tab, and the rest. -/
def listingRow (line : Nat) (rest : List Char) : List Char := Nat.toDigits 10 line ++ ['\t'] ++ rest

/-- Rows for words at consecutive addresses, each the object code line of its word and the code it stands for; a word
beyond the given codes has none. -/
def codeRows (line : Nat) : Nat → List InstrWord → List (List Char) → List (List Char)
  | _, [], _ => []
  | here, w :: ws, [] => listingRow line (objectLine .x16 (here, w)) :: codeRows line (here + 2) ws []
  | here, w :: ws, c :: cs =>
    listingRow line (objectLine .x16 (here, w) ++ [' '] ++ c) :: codeRows line (here + 2) ws cs

/-- The rows of a line of the assembly: a label by itself is a row with its name; an instruction or a pseudo-operation
gives its intermediate code; data the source line, which holds its label; an error the pattern and the source line. -/
def AsmLine.listingRows (tab : Symbols) (o : AsmBranchOp2) (line here : Nat) (source : List Char) (l : AsmLine) :
    List (List Char) :=
  if l.defined tab then
    match l with
    | .label name => [listingRow line name]
    | .instr i => codeRows line here (l.words tab o here) [instrText i]
    | .pseudo p =>
      codeRows line here (l.words tab o here)
        (intermediate (p.ldiTexts here) (p.expand (Const.value tab) o (BitVec.ofNat 16 here)))
    | .ints _ | .text _ | .bad => codeRows line here (l.words tab o here) [source]
  else [listingRow line (errorPattern ++ [' '] ++ source)]

/-- The rows of one source line: the label that stands before data has no row of its own. -/
def sourceRows (tab : Symbols) (o : AsmBranchOp2) (line here : Nat) (source : List Char) :
    List AsmLine → List (List Char)
  | [] => []
  | [l] => l.listingRows tab o line here source
  | _ :: rest => sourceRows tab o line here source rest

/-- The rows of the source lines from a line number and an address on. -/
def listingFrom (tab : Symbols) (o : AsmBranchOp2) (line here : Nat) : List (List Char) → List (List Char)
  | [] => []
  | source :: rest =>
    let ls := parseLine o source
    sourceRows tab o line here source ls ++
      listingFrom tab o (line + 1) (here + (ls.map AsmLine.size).sum) rest

/-- The listing that the assembler prints with the parameter debug (30_encoding.md R97). -/
def debugListing (o : AsmBranchOp2) (src : List Char) : List (List Char) :=
  listingFrom (symbolsFrom 0 (parseSource o src)) o 1 0 (sourceLines src)

end Sys2Proof.Machine
end

