-- ==== Sys2Proof/Safety.lean ====
section
/-! DEFINITION. The terms that statements use: what an instruction leaves unchanged, the states a run starts in, the
run that records a fault, and the invariant of memory. -/

namespace Sys2Proof.Machine

/-! ## Frames -/

/-- Every byte of memory reads as before. -/
def Mach.SameMemory {x : Xlen} (m m' : Mach x) : Prop := ∀ addr, m'.byteAt addr = m.byteAt addr

/-- Every register is as before. -/
def Mach.SameRegs {x : Xlen} (m m' : Mach x) : Prop := ∀ r, m'.reg r = m.reg r

/-- Every register but one is as before. -/
def Mach.SameRegsBut {x : Xlen} (d : Reg) (m m' : Mach x) : Prop := ∀ r, r ≠ d → m'.reg r = m.reg r

/-- The output trace and both inputs are as before. -/
def Mach.SameDevices {x : Xlen} (m m' : Mach x) : Prop :=
  m'.output = m.output ∧ m'.charInput = m.charInput ∧ m'.charsRead = m.charsRead ∧
    m'.intInput = m.intInput ∧ m'.intsRead = m.intsRead

/-- The run status and the instruction count are as before. -/
def Mach.SameRun {x : Xlen} (m m' : Mach x) : Prop := m'.status = m.status ∧ m'.cycles = m.cycles

/-- What an instruction that only computes leaves unchanged: every register but its destination, pc (which the decode
has already moved on), memory, devices and run status (40_computation.md's common text, 10_state.md R24). -/
def Mach.OnlyReg {x : Xlen} (d : Reg) (m m' : Mach x) : Prop :=
  m.SameRegsBut d m' ∧ m'.pc = m.pc ∧ m.SameMemory m' ∧ m.SameDevices m' ∧ m.SameRun m'

/-- What a branch leaves unchanged: everything but pc (43_branch.md's common text). -/
def Mach.OnlyPc {x : Xlen} (m m' : Mach x) : Prop :=
  m.SameRegs m' ∧ m.SameMemory m' ∧ m.SameDevices m' ∧ m.SameRun m'

/-- What a store of n bytes to memory leaves unchanged: everything but the bytes from addr on. -/
def Mach.OnlyBytes {x : Xlen} (addr n : Nat) (m m' : Mach x) : Prop :=
  m.SameRegs m' ∧ m'.pc = m.pc ∧ (∀ a, a < addr ∨ addr + n ≤ a → m'.byteAt a = m.byteAt a) ∧
    m.SameDevices m' ∧ m.SameRun m'

/-- Byte k, counted from the most significant, of a value of n bytes (20_memory.md R43, R44). -/
def byteOf (n k v : Nat) : Nat := v / 256 ^ (n - 1 - k) % 256

/-! ## Runs -/

/-- The machine is at the start of a run of an image: pc, r7, memory, run status and output as 10_state.md R34 says,
and r0 to r6 with any values at all. -/
def Mach.AtStart {x : Xlen} (img : Image) (m : Mach x) : Prop :=
  m.pc = Config.entry x ∧ m.reg .sp = Config.spInit x ∧ m.mem = Memory.load [] img ∧ m.status = .running ∧ m.output = []

/-- One step with its outcome recorded in the run status (60_exceptions.md R262). -/
def State.stepRecorded (s : State) : State := s.settle (step s)

/-- Some steps with their outcomes recorded. -/
def State.runRecorded : Nat → State → State
  | 0, s => s
  | n + 1, s => State.runRecorded n s.stepRecorded

/-- The invariant of memory: its canonical form, and nothing stored outside [0, MEM_SIZE) (20_memory.md R50, R51). -/
def State.MemoryInv (s : State) : Prop :=
  s.mach.mem.wf = true ∧ s.mach.mem.below (Config.memSize s.xlen) = true

end Sys2Proof.Machine
end

