-- ==== Sys2Proof/Certificates/Slice0/Obligations.lean ====
section
/-! DEFINITION. The statements for the provers. A machine of the variant x is written ⟨x, m⟩; where exec runs an
instruction, pc has already been moved past it (10_state.md R25). Memory is spoken of through Mach.byteAt. -/

open Sys2Proof Sys2Proof.Machine

/-! ## Encoding -/

/-- 30_encoding.md section 3: the decoder reads every well-formed instruction back from its own word, and from its own
two bytes whatever bytes follow. -/
def Obligations.DecodeEncodeAgree : Prop :=
  ∀ i : Instr, i.WellFormed →
    decodeWord (encode i) = .ok i ∧ ∀ rest, decode (encodeBytes i ++ rest) = .ok (i, rest)

/-- 30_encoding.md section 3: a word the decoder accepts is the word that the encoder gives for what it reads, which is well
formed; so no bit of an accepted word is dropped. The spec gives the register forms of BEZ and of BNZ two words each (its
decision D8; log 13): that no two words decode to one term holds because the model makes each alias encoding a constructor
of its own. -/
def Obligations.AcceptedWordsReencode : Prop :=
  ∀ (w : InstrWord) (i : Instr), decodeWord w = .ok i → i.WellFormed ∧ encode i = w

/-- 30_encoding.md section 3: the decoding algorithm and the table of complete encodings are the same map. Every
accepted word matches the row of the instruction it decodes to; every word that matches a row is accepted, as an
instruction of that row; no word matches two rows. The two alias rows and the HCF row rest on the spec's decisions D8
and D9 (log 13, log 11). -/
def Obligations.DecodesExactlyTableRows : Prop :=
  (∀ (w : InstrWord) (i : Instr), decodeWord w = .ok i → i.row ∈ opcodeRows ∧ w &&& i.row.mask = i.row.pattern) ∧
  (∀ (w : InstrWord) (r : OpcodeRow), r ∈ opcodeRows → w &&& r.mask = r.pattern →
    ∃ i, decodeWord w = .ok i ∧ i.row = r) ∧
  (∀ (w : InstrWord) (r q : OpcodeRow), r ∈ opcodeRows → q ∈ opcodeRows → w &&& r.mask = r.pattern →
    w &&& q.mask = q.pattern → r = q)

/-- 30_encoding.md section 4 (the spec's decisions D6 and D7; log 9): the words the decoder refuses, listed by their
fields. A word is unassigned if its Opcode, Imm and Op2 name no instruction, and refused for its fixed field if they
name one whose fixed field is not 000. -/
def Obligations.RefusedWordsAreTheReservedOnes : Prop :=
  ∀ w : InstrWord,
    let opcode := w.toNat / 4096
    let imm := w.toNat / 2048 % 2
    let rst := w.toNat / 256 % 8
    let rsA := w.toNat / 32 % 8
    let rsB := w.toNat / 4 % 8
    let op2 := w.toNat % 4
    (decodeWord w = .error (.unassigned w) ↔
      (imm = 1 ∧ opcode ∈ [7, 12, 13, 14, 15]) ∨
      (imm = 0 ∧ op2 = 0 ∧ opcode ∈ [7, 8, 9, 12, 13, 14, 15]) ∨
      (imm = 0 ∧ op2 = 1 ∧ opcode ∉ [0, 1]) ∨
      (imm = 0 ∧ op2 = 2 ∧ opcode ∉ [0, 1, 4, 5]) ∨
      (imm = 0 ∧ op2 = 3 ∧ opcode ∉ [10, 11] ∧ w ≠ 0x0003)) ∧
    (decodeWord w = .error (.fixedFieldNotZero w) ↔
      imm = 0 ∧ ((op2 = 1 ∧ opcode ∈ [0, 1] ∧ rsB ≠ 0) ∨ (op2 = 2 ∧ opcode ∈ [0, 4] ∧ rsA ≠ 0) ∨
        (op2 = 2 ∧ opcode ∈ [1, 5] ∧ rst ≠ 0) ∨ (op2 = 3 ∧ opcode ∈ [10, 11] ∧ rst ≠ 0) ∨
        (op2 = 0 ∧ opcode ∈ [10, 11] ∧ rst ≠ 0))) ∧
    decodeWord w ≠ .error .tooFewBytes

/-- 30_encoding.md R74: each field of a word is the bits the rule names. -/
def Obligations.FieldsAreTheirBits : Prop :=
  ∀ w : InstrWord,
    (opcodeField w).toNat = w.toNat / 4096 ∧
    immField w = decide (w.toNat / 2048 % 2 = 1) ∧
    (rstField w).index.toNat = w.toNat / 256 % 8 ∧
    (rsAField w).index.toNat = w.toNat / 32 % 8 ∧
    (rsBField w).index.toNat = w.toNat / 4 % 8 ∧
    (op2Field w).toNat = w.toNat % 4 ∧
    (immediateField w).toNat = w.toNat % 256

/-- 30_encoding.md R71: in every word that is an instruction, bit 11 tells the format. -/
def Obligations.BitElevenTellsFormat : Prop :=
  ∀ (w : InstrWord) (i : Instr), decodeWord w = .ok i →
    (w.getLsbD 11 = false ↔ i.format = .typeR) ∧ (w.getLsbD 11 = true ↔ i.format = .typeI)

/-- 95_test_vectors.md section 1.1: words written out by hand from the encodings decode to what they stand for, and
three words that are no encoding are refused. That 0xa04c is a branch is the spec's decision D8 (log 13), that 0x0003 is
HCF its decision D9 (log 11), that the three words are refused its decisions D6 and D7 (log 9). -/
def Obligations.WrittenOutWordsDecode : Prop :=
  decodeWord 0x0270 = .ok (.andR .r2 .r3 .r4) ∧
  decodeWord 0x5328 = .ok (.addR .r3 .r1 .r2) ∧
  decodeWord 0x2dff = .ok (.xorI .r5 0xff) ∧
  decodeWord 0x9b0a = .ok (.ldc .r3 0x0a) ∧
  decodeWord 0x0561 = .ok (.lsr .r5 .r3 .r0) ∧
  decodeWord 0x030a = .ok (.ldb .r3 .r0 .r2) ∧
  decodeWord 0x502a = .ok (.stw .r0 .r1 .r2) ∧
  decodeWord 0xa04f = .ok (.bezR .r0 .r2 .r3) ∧
  decodeWord 0xa04c = .ok (.bezRAlias .r0 .r2 .r3) ∧
  decodeWord 0xac1c = .ok (.bezI .r4 0x1c) ∧
  decodeWord 0x0003 = .ok .hcf ∧
  decodeWord 0x7000 = .error (.unassigned 0x7000) ∧
  decodeWord 0x0007 = .error (.unassigned 0x0007) ∧
  decodeWord 0x0125 = .error (.fixedFieldNotZero 0x0125)

/-! ## The computation class -/

/-- 40_computation.md R110, R111: AND of two registers, and of a register with the zero-extended immediate. -/
def Obligations.AndIsBitwiseProduct : Prop :=
  ∀ (x : Xlen) (m : Mach x) (d a b : Reg) (imm : BitVec 8),
    (decodeWord (0b0000#4 ++ 0#1 ++ d.index ++ a.index ++ b.index ++ 0b00#2) = .ok (.andR d a b) ∧
      ∃ m', exec (.andR d a b) ⟨x, m⟩ = .next ⟨x, m'⟩ ∧ m.OnlyReg d m' ∧
        ∀ k, (m'.reg d).getLsbD k = ((m.reg a).getLsbD k && (m.reg b).getLsbD k)) ∧
    (decodeWord (0b0000#4 ++ 1#1 ++ d.index ++ imm) = .ok (.andI d imm) ∧
      ∃ m', exec (.andI d imm) ⟨x, m⟩ = .next ⟨x, m'⟩ ∧ m.OnlyReg d m' ∧
        ∀ k, (m'.reg d).getLsbD k = ((m.reg d).getLsbD k && (decide (k < 8) && imm.getLsbD k)))

/-- 40_computation.md R112, R113: OR of two registers, and of a register with the zero-extended immediate. -/
def Obligations.OrIsBitwiseSum : Prop :=
  ∀ (x : Xlen) (m : Mach x) (d a b : Reg) (imm : BitVec 8),
    (decodeWord (0b0001#4 ++ 0#1 ++ d.index ++ a.index ++ b.index ++ 0b00#2) = .ok (.orR d a b) ∧
      ∃ m', exec (.orR d a b) ⟨x, m⟩ = .next ⟨x, m'⟩ ∧ m.OnlyReg d m' ∧
        ∀ k, (m'.reg d).getLsbD k = ((m.reg a).getLsbD k || (m.reg b).getLsbD k)) ∧
    (decodeWord (0b0001#4 ++ 1#1 ++ d.index ++ imm) = .ok (.orI d imm) ∧
      ∃ m', exec (.orI d imm) ⟨x, m⟩ = .next ⟨x, m'⟩ ∧ m.OnlyReg d m' ∧
        ∀ k, (m'.reg d).getLsbD k = ((m.reg d).getLsbD k || (decide (k < 8) && imm.getLsbD k)))

/-- 40_computation.md R114, R115: XOR of two registers, and of a register with the sign-extended immediate. -/
def Obligations.XorIsBitwiseDifference : Prop :=
  ∀ (x : Xlen) (m : Mach x) (d a b : Reg) (imm : BitVec 8),
    (decodeWord (0b0010#4 ++ 0#1 ++ d.index ++ a.index ++ b.index ++ 0b00#2) = .ok (.xorR d a b) ∧
      ∃ m', exec (.xorR d a b) ⟨x, m⟩ = .next ⟨x, m'⟩ ∧ m.OnlyReg d m' ∧
        ∀ k, (m'.reg d).getLsbD k = ((m.reg a).getLsbD k != (m.reg b).getLsbD k)) ∧
    (decodeWord (0b0010#4 ++ 1#1 ++ d.index ++ imm) = .ok (.xorI d imm) ∧
      ∃ m', exec (.xorI d imm) ⟨x, m⟩ = .next ⟨x, m'⟩ ∧ m.OnlyReg d m' ∧
        ∀ k, k < x.bits →
          (m'.reg d).getLsbD k = ((m.reg d).getLsbD k != (if k < 8 then imm.getLsbD k else imm.getLsbD 7)))

/-- 40_computation.md R116: SLT writes 1 if the first register is less than the second as signed numbers, else 0. -/
def Obligations.SltComparesSigned : Prop :=
  ∀ (x : Xlen) (m : Mach x) (d a b : Reg),
    decodeWord (0b0011#4 ++ 0#1 ++ d.index ++ a.index ++ b.index ++ 0b00#2) = .ok (.sltR d a b) ∧
      ∃ m', exec (.sltR d a b) ⟨x, m⟩ = .next ⟨x, m'⟩ ∧ m.OnlyReg d m' ∧
        (m'.reg d).toNat = if (m.reg a).toInt < (m.reg b).toInt then 1 else 0

/-- 40_computation.md R118: SLTU writes 1 if the first register is less than the second as unsigned numbers, else 0. -/
def Obligations.SltuComparesUnsigned : Prop :=
  ∀ (x : Xlen) (m : Mach x) (d a b : Reg),
    decodeWord (0b0100#4 ++ 0#1 ++ d.index ++ a.index ++ b.index ++ 0b00#2) = .ok (.sltuR d a b) ∧
      ∃ m', exec (.sltuR d a b) ⟨x, m⟩ = .next ⟨x, m'⟩ ∧ m.OnlyReg d m' ∧
        (m'.reg d).toNat = if (m.reg a).toNat < (m.reg b).toNat then 1 else 0

/-- 40_computation.md sections 5 and 6: the immediate forms of SLT and SLTU compare x[Rst] with the sign-extended
immediate, SLTU as unsigned numbers. That the first operand is x[Rst] is the resolution of 90_conflicts.md C2 (log 18). -/
def Obligations.ImmediateComparesUseRst : Prop :=
  ∀ (x : Xlen) (m : Mach x) (d : Reg) (imm : BitVec 8),
    (decodeWord (0b0011#4 ++ 1#1 ++ d.index ++ imm) = .ok (.sltI d imm) ∧
      ∃ m', exec (.sltI d imm) ⟨x, m⟩ = .next ⟨x, m'⟩ ∧ m.OnlyReg d m' ∧
        (m'.reg d).toNat = if (m.reg d).toInt < imm.toInt then 1 else 0) ∧
    (decodeWord (0b0100#4 ++ 1#1 ++ d.index ++ imm) = .ok (.sltuI d imm) ∧
      ∃ m', exec (.sltuI d imm) ⟨x, m⟩ = .next ⟨x, m'⟩ ∧ m.OnlyReg d m' ∧
        (m'.reg d).toNat =
          if (m.reg d).toNat < (if imm.toNat < 128 then imm.toNat else 2 ^ x.bits - 256 + imm.toNat) then 1 else 0)

/-- 40_computation.md R120, R121: ADD modulo 2^XLEN, of two registers, and of a register and the sign-extended
immediate. -/
def Obligations.AddWrapsModulo : Prop :=
  ∀ (x : Xlen) (m : Mach x) (d a b : Reg) (imm : BitVec 8),
    (decodeWord (0b0101#4 ++ 0#1 ++ d.index ++ a.index ++ b.index ++ 0b00#2) = .ok (.addR d a b) ∧
      ∃ m', exec (.addR d a b) ⟨x, m⟩ = .next ⟨x, m'⟩ ∧ m.OnlyReg d m' ∧
        (m'.reg d).toNat = ((m.reg a).toNat + (m.reg b).toNat) % 2 ^ x.bits) ∧
    (decodeWord (0b0101#4 ++ 1#1 ++ d.index ++ imm) = .ok (.addI d imm) ∧
      ∃ m', exec (.addI d imm) ⟨x, m⟩ = .next ⟨x, m'⟩ ∧ m.OnlyReg d m' ∧
        ((m'.reg d).toNat : Int) = (((m.reg d).toNat : Int) + imm.toInt) % 2 ^ x.bits)

/-- 40_computation.md section 8: the register form of SUB subtracts RsB from RsA modulo 2^XLEN. The manual's formula for
it is lost and the spec restores the order from its uses (log 17). -/
def Obligations.SubRegisterWrapsModulo : Prop :=
  ∀ (x : Xlen) (m : Mach x) (d a b : Reg),
    decodeWord (0b0110#4 ++ 0#1 ++ d.index ++ a.index ++ b.index ++ 0b00#2) = .ok (.subR d a b) ∧
      ∃ m', exec (.subR d a b) ⟨x, m⟩ = .next ⟨x, m'⟩ ∧ m.OnlyReg d m' ∧
        ((m'.reg d).toNat : Int) = (((m.reg a).toNat : Int) - (m.reg b).toNat) % 2 ^ x.bits

/-- 40_computation.md R123: the immediate form of SUB subtracts the sign-extended immediate modulo 2^XLEN. -/
def Obligations.SubImmediateWrapsModulo : Prop :=
  ∀ (x : Xlen) (m : Mach x) (d : Reg) (imm : BitVec 8),
    decodeWord (0b0110#4 ++ 1#1 ++ d.index ++ imm) = .ok (.subI d imm) ∧
      ∃ m', exec (.subI d imm) ⟨x, m⟩ = .next ⟨x, m'⟩ ∧ m.OnlyReg d m' ∧
        ((m'.reg d).toNat : Int) = (((m.reg d).toNat : Int) - imm.toInt) % 2 ^ x.bits

/-- 40_computation.md R124: LDR loads the immediate as a signed number; the old content is not used. -/
def Obligations.LdrLoadsSigned : Prop :=
  ∀ (x : Xlen) (m : Mach x) (d : Reg) (imm : BitVec 8),
    decodeWord (0b1000#4 ++ 1#1 ++ d.index ++ imm) = .ok (.ldr d imm) ∧
      ∃ m', exec (.ldr d imm) ⟨x, m⟩ = .next ⟨x, m'⟩ ∧ m.OnlyReg d m' ∧ (m'.reg d).toInt = imm.toInt

/-- 40_computation.md R125: LDC shifts the register left by eight bits and inserts the immediate; the old top byte is
lost. Both of the rule's lines: the sum, and the concatenation. -/
def Obligations.LdcShiftsAndInserts : Prop :=
  ∀ (x : Xlen) (m : Mach x) (d : Reg) (imm : BitVec 8),
    decodeWord (0b1001#4 ++ 1#1 ++ d.index ++ imm) = .ok (.ldc d imm) ∧
      ∃ m', exec (.ldc d imm) ⟨x, m⟩ = .next ⟨x, m'⟩ ∧ m.OnlyReg d m' ∧
        (m'.reg d).toNat = (m.reg d).toNat * 256 % 2 ^ x.bits + imm.toNat ∧
        ∀ k, k < x.bits → (m'.reg d).getLsbD k = if k < 8 then imm.getLsbD k else (m.reg d).getLsbD (k - 8)

/-! ## The shift class -/

/-- 41_shift.md: LSR is the unsigned quotient by two, in every form with r0 in the fixed field; a form with another
register there is reserved (the spec's decision D7; log 9). -/
def Obligations.LsrHalvesUnsigned : Prop :=
  ∀ (x : Xlen) (m : Mach x) (d a : Reg),
    decodeWord (0b0000#4 ++ 0#1 ++ d.index ++ a.index ++ 0b000#3 ++ 0b01#2) = .ok (.lsr d a .r0) ∧
      (∃ m', exec (.lsr d a .r0) ⟨x, m⟩ = .next ⟨x, m'⟩ ∧ m.OnlyReg d m' ∧
        (m'.reg d).toNat = (m.reg a).toNat / 2) ∧
      ∀ b, b ≠ .r0 → exec (.lsr d a b) ⟨x, m⟩ = .fault (.reservedInstruction (encode (.lsr d a b)))

/-- 41_shift.md: ASR is the signed quotient by two rounded toward minus infinity, in every form with r0 in the fixed
field; a form with another register there is reserved (the spec's decision D7; log 9). -/
def Obligations.AsrHalvesSigned : Prop :=
  ∀ (x : Xlen) (m : Mach x) (d a : Reg),
    decodeWord (0b0001#4 ++ 0#1 ++ d.index ++ a.index ++ 0b000#3 ++ 0b01#2) = .ok (.asr d a .r0) ∧
      (∃ m', exec (.asr d a .r0) ⟨x, m⟩ = .next ⟨x, m'⟩ ∧ m.OnlyReg d m' ∧
        (m'.reg d).toInt = (m.reg a).toInt.fdiv 2) ∧
      ∀ b, b ≠ .r0 → exec (.asr d a b) ⟨x, m⟩ = .fault (.reservedInstruction (encode (.asr d a b)))

/-! ## The load and store class -/

/-- 42_load_store.md: LDB loads the byte at the address in x[RsB] as a signed number, at every address of memory, odd or
even. -/
def Obligations.LdbLoadsSignedByte : Prop :=
  ∀ (x : Xlen) (m : Mach x) (d b : Reg),
    decodeWord (0b0000#4 ++ 0#1 ++ d.index ++ 0b000#3 ++ b.index ++ 0b10#2) = .ok (.ldb d .r0 b) ∧
    ((m.effectiveAddr b).toNat < Config.memSize x →
      ∃ m', exec (.ldb d .r0 b) ⟨x, m⟩ = .next ⟨x, m'⟩ ∧ m.OnlyReg d m' ∧
        (m'.reg d).toInt = (m.byteAt (m.reg b).toNat).toInt)

/-- 42_load_store.md: STB stores the low byte of x[RsA] at the address in x[RsB], at every address of memory, odd or
even, and changes nothing else. That no register is written is the spec's decision D10 (log 14). -/
def Obligations.StbStoresLowByte : Prop :=
  ∀ (x : Xlen) (m : Mach x) (a b : Reg),
    decodeWord (0b0001#4 ++ 0#1 ++ 0b000#3 ++ a.index ++ b.index ++ 0b10#2) = .ok (.stb .r0 a b) ∧
    ((m.effectiveAddr b).toNat < Config.memSize x →
      ∃ m', exec (.stb .r0 a b) ⟨x, m⟩ = .next ⟨x, m'⟩ ∧ m.OnlyBytes (m.effectiveAddr b).toNat 1 m' ∧
        (m'.byteAt (m.reg b).toNat).toNat = (m.reg a).toNat % 256)

/-- 42_load_store.md: LDW at an aligned address of memory loads the word whose bytes, the most significant first, stand
from that address on. -/
def Obligations.LdwLoadsBigEndianWord : Prop :=
  ∀ (x : Xlen) (m : Mach x) (d b : Reg),
    decodeWord (0b0100#4 ++ 0#1 ++ d.index ++ 0b000#3 ++ b.index ++ 0b10#2) = .ok (.ldw d .r0 b) ∧
    ((m.effectiveAddr b).toNat % x.wbytes = 0 → (m.effectiveAddr b).toNat < Config.memSize x →
      ∃ m', exec (.ldw d .r0 b) ⟨x, m⟩ = .next ⟨x, m'⟩ ∧ m.OnlyReg d m' ∧
        ∀ k, k < x.wbytes → byteOf x.wbytes k (m'.reg d).toNat = (m.byteAt ((m.reg b).toNat + k)).toNat)

/-- 42_load_store.md: STW at an aligned address of memory stores the bytes of x[RsA], the most significant first, from
that address on, and changes nothing else. That no register is written is the spec's decision D10 (log 14). -/
def Obligations.StwStoresBigEndianWord : Prop :=
  ∀ (x : Xlen) (m : Mach x) (a b : Reg),
    decodeWord (0b0101#4 ++ 0#1 ++ 0b000#3 ++ a.index ++ b.index ++ 0b10#2) = .ok (.stw .r0 a b) ∧
    ((m.effectiveAddr b).toNat % x.wbytes = 0 → (m.effectiveAddr b).toNat < Config.memSize x →
      ∃ m', exec (.stw .r0 a b) ⟨x, m⟩ = .next ⟨x, m'⟩ ∧ m.OnlyBytes (m.effectiveAddr b).toNat x.wbytes m' ∧
        ∀ k, k < x.wbytes → (m'.byteAt ((m.reg b).toNat + k)).toNat = byteOf x.wbytes k (m.reg a).toNat)

/-- 60_exceptions.md section 3 (the spec's decision D16): LDW from an input port takes one value. IN_CHAR gives the next
character the host supplied, zero-extended; IN_INT the next integer modulo 2^XLEN. Where the host supplied none the value
is free (log 4), a character still being eight bits. -/
def Obligations.LdwTakesInput : Prop :=
  ∀ (x : Xlen) (m : Mach x) (d b : Reg),
    ((m.effectiveAddr b).toNat = Config.portAddr x .inChar →
      ∃ m', exec (.ldw d .r0 b) ⟨x, m⟩ = .next ⟨x, m'⟩ ∧ m.SameRegsBut d m' ∧ m'.pc = m.pc ∧ m.SameMemory m' ∧
        m.SameRun m' ∧ m'.output = m.output ∧ m'.intInput = m.intInput ∧ m'.intsRead = m.intsRead ∧
        m'.charInput = m.charInput.tail ∧ m'.charsRead = m.charsRead + 1 ∧ (m'.reg d).toNat < 256 ∧
        ∀ c rest, m.charInput = c :: rest → (m'.reg d).toNat = c.toNat) ∧
    ((m.effectiveAddr b).toNat = Config.portAddr x .inInt →
      ∃ m', exec (.ldw d .r0 b) ⟨x, m⟩ = .next ⟨x, m'⟩ ∧ m.SameRegsBut d m' ∧ m'.pc = m.pc ∧ m.SameMemory m' ∧
        m.SameRun m' ∧ m'.output = m.output ∧ m'.charInput = m.charInput ∧ m'.charsRead = m.charsRead ∧
        m'.intInput = m.intInput.tail ∧ m'.intsRead = m.intsRead + 1 ∧
        ∀ n rest, m.intInput = n :: rest → ((m'.reg d).toNat : Int) = n % 2 ^ x.bits)

/-- 60_exceptions.md section 3 (the spec's decision D15): STW to an output port appends one event that carries the whole
word and writes no memory. That no register is written is the spec's decision D10 (log 14). -/
def Obligations.StwEmitsOutput : Prop :=
  ∀ (x : Xlen) (m : Mach x) (a b : Reg),
    ((m.effectiveAddr b).toNat = Config.portAddr x .outChar →
      ∃ m', exec (.stw .r0 a b) ⟨x, m⟩ = .next ⟨x, m'⟩ ∧ m.SameRegs m' ∧ m'.pc = m.pc ∧ m.SameMemory m' ∧
        m.SameRun m' ∧ m'.charInput = m.charInput ∧ m'.charsRead = m.charsRead ∧ m'.intInput = m.intInput ∧
        m'.intsRead = m.intsRead ∧ m'.output = m.output ++ [.outChar (m.reg a)]) ∧
    ((m.effectiveAddr b).toNat = Config.portAddr x .outInt →
      ∃ m', exec (.stw .r0 a b) ⟨x, m⟩ = .next ⟨x, m'⟩ ∧ m.SameRegs m' ∧ m'.pc = m.pc ∧ m.SameMemory m' ∧
        m.SameRun m' ∧ m'.charInput = m.charInput ∧ m'.charsRead = m.charsRead ∧ m'.intInput = m.intInput ∧
        m'.intsRead = m.intsRead ∧ m'.output = m.output ++ [.outInt (m.reg a)])

/-! ## The branch class and HCF -/

/-- 43_branch.md: the register form of BEZ, in both its encodings, sets pc to x[RsB] if x[RsA] is zero and else leaves it
at the next instruction. The second encoding is the spec's decision D8 (log 13); that no register is written is its
decision D10 (log 14). -/
def Obligations.BezRegisterBranchesIfZero : Prop :=
  ∀ (x : Xlen) (m : Mach x) (a b : Reg) (i : Instr),
    decodeWord (0b1010#4 ++ 0#1 ++ 0b000#3 ++ a.index ++ b.index ++ 0b11#2) = .ok (.bezR .r0 a b) ∧
    decodeWord (0b1010#4 ++ 0#1 ++ 0b000#3 ++ a.index ++ b.index ++ 0b00#2) = .ok (.bezRAlias .r0 a b) ∧
    (i = .bezR .r0 a b ∨ i = .bezRAlias .r0 a b →
      ∃ m', exec i ⟨x, m⟩ = .next ⟨x, m'⟩ ∧ m.OnlyPc m' ∧
        m'.pc = if (m.reg a).toNat = 0 then m.reg b else m.pc)

/-- 43_branch.md: the register form of BNZ, in both its encodings, sets pc to x[RsB] if x[RsA] is not zero and else
leaves it at the next instruction. The manual's formula is lost and the spec restores it (log 17); the second encoding is
the spec's decision D8 (log 13); that no register is written is its decision D10 (log 14). -/
def Obligations.BnzRegisterBranchesIfNotZero : Prop :=
  ∀ (x : Xlen) (m : Mach x) (a b : Reg) (i : Instr),
    decodeWord (0b1011#4 ++ 0#1 ++ 0b000#3 ++ a.index ++ b.index ++ 0b11#2) = .ok (.bnzR .r0 a b) ∧
    decodeWord (0b1011#4 ++ 0#1 ++ 0b000#3 ++ a.index ++ b.index ++ 0b00#2) = .ok (.bnzRAlias .r0 a b) ∧
    (i = .bnzR .r0 a b ∨ i = .bnzRAlias .r0 a b →
      ∃ m', exec i ⟨x, m⟩ = .next ⟨x, m'⟩ ∧ m.OnlyPc m' ∧
        m'.pc = if (m.reg a).toNat = 0 then m.pc else m.reg b)

/-- 43_branch.md: the PC-relative form of BEZ adds the signed immediate, unscaled, to pc if x[Rst] is zero. That
the sum is modulo 2^XLEN is the spec's decisions D2 and D3 (log 6), that no register is written its decision D10
(log 14). -/
def Obligations.BezRelativeAddsOffset : Prop :=
  ∀ (x : Xlen) (m : Mach x) (d : Reg) (imm : BitVec 8),
    decodeWord (0b1010#4 ++ 1#1 ++ d.index ++ imm) = .ok (.bezI d imm) ∧
      ∃ m', exec (.bezI d imm) ⟨x, m⟩ = .next ⟨x, m'⟩ ∧ m.OnlyPc m' ∧
        (m'.pc.toNat : Int) = if (m.reg d).toNat = 0 then (m.pc.toNat + imm.toInt) % 2 ^ x.bits else m.pc.toNat

/-- 43_branch.md: the PC-relative form of BNZ adds the signed immediate, unscaled, to pc if x[Rst] is not zero. That
the sum is modulo 2^XLEN is the spec's decisions D2 and D3 (log 6), that no register is written its decision D10
(log 14). -/
def Obligations.BnzRelativeAddsOffset : Prop :=
  ∀ (x : Xlen) (m : Mach x) (d : Reg) (imm : BitVec 8),
    decodeWord (0b1011#4 ++ 1#1 ++ d.index ++ imm) = .ok (.bnzI d imm) ∧
      ∃ m', exec (.bnzI d imm) ⟨x, m⟩ = .next ⟨x, m'⟩ ∧ m.OnlyPc m' ∧
        (m'.pc.toNat : Int) = if (m.reg d).toNat = 0 then (m.pc.toNat : Int) else (m.pc.toNat + imm.toInt) % 2 ^ x.bits

/-- 45_pseudo_operations.md section 1 (the spec's decision D9; log 11): the word 0x0003 and no other is HCF, and HCF sets
the run status to halted and changes nothing else. -/
def Obligations.HcfHaltsTheRun : Prop :=
  (∀ w : InstrWord, decodeWord w = .ok .hcf ↔ w = 0x0003) ∧
  ∀ (x : Xlen) (m : Mach x),
    ∃ m', exec .hcf ⟨x, m⟩ = .next ⟨x, m'⟩ ∧ m'.status = .halted ∧ m'.regs = m.regs ∧ m'.pc = m.pc ∧
      m.SameMemory m' ∧ m.SameDevices m' ∧ m'.cycles = m.cycles

/-! ## Operands and memory -/

/-- 30_encoding.md R77: sign extension copies bit 7 of the immediate into every higher bit; as a signed number the
immediate keeps its value, from -128 to 127. -/
def Obligations.SignExtensionCopiesBitSeven : Prop :=
  ∀ (x : Xlen) (imm : BitVec 8),
    (∀ k, k < x.bits → (sextImm x imm).getLsbD k = if k < 8 then imm.getLsbD k else imm.getLsbD 7) ∧
    (sextImm x imm).toInt = imm.toInt ∧ -128 ≤ imm.toInt ∧ imm.toInt ≤ 127

/-- 10_state.md R21: no register is hardwired, r0 included: each holds what was last written to it, and writing one
leaves the others. -/
def Obligations.NoRegisterIsHardwired : Prop :=
  ∀ (x : Xlen) (m : Mach x) (r q : Reg) (v : Word x), (m.setReg r v).reg q = if q = r then v else m.reg q

/-- 20_memory.md section 2: the memory primitives are big-endian. What is stored reads back byte by byte from the most
significant, every other byte is as before, and what is read is those bytes joined. -/
def Obligations.MemoryPrimitivesAreBigEndian : Prop :=
  ∀ (x : Xlen) (m : Mach x) (addr n : Nat) (v : BitVec (8 * n)),
    (∀ k, k < n → ((m.memWrite addr n v).byteAt (addr + k)).toNat = byteOf n k v.toNat) ∧
    (∀ a, a < addr ∨ addr + n ≤ a → (m.memWrite addr n v).byteAt a = m.byteAt a) ∧
    (∀ k, k < n → byteOf n k (m.memRead addr n (8 * n)).toNat = (m.byteAt (addr + k)).toNat) ∧
    (m.memWrite addr n v).memRead addr n (8 * n) = v

/-- 20_memory.md section 7 (the spec's decision D17): a word stored is the word a later load from the same address
gives. -/
def Obligations.StoredWordLoadsBack : Prop :=
  ∀ (x : Xlen) (m m1 : Mach x) (a b c d : Reg),
    exec (.stw .r0 a b) ⟨x, m⟩ = .next ⟨x, m1⟩ → (m.reg b).toNat < Config.memSize x →
      m.reg c = m.reg b → ∃ m2, exec (.ldw d .r0 c) ⟨x, m1⟩ = .next ⟨x, m2⟩ ∧ m2.reg d = m.reg a

/-- 20_memory.md section 2: what a byte access sees of a word. A word stored and then read by a byte load at its k-th
byte gives byte k, the most significant being byte 0; a byte stored into a word replaces byte k of the word that a word
load then gives, and keeps the others. -/
def Obligations.MixedWidthAccessesAgree : Prop :=
  ∀ (x : Xlen) (m m1 : Mach x) (a b c d : Reg) (k : Nat),
    (m.reg b).toNat % x.wbytes = 0 → (m.reg b).toNat < Config.memSize x → k < x.wbytes →
    (m.reg c).toNat = (m.reg b).toNat + k →
      (exec (.stw .r0 a b) ⟨x, m⟩ = .next ⟨x, m1⟩ →
        ∃ m2, exec (.ldb d .r0 c) ⟨x, m1⟩ = .next ⟨x, m2⟩ ∧
          (m2.reg d).toNat % 256 = byteOf x.wbytes k (m.reg a).toNat) ∧
      (exec (.stb .r0 a c) ⟨x, m⟩ = .next ⟨x, m1⟩ →
        ∃ m2, exec (.ldw d .r0 b) ⟨x, m1⟩ = .next ⟨x, m2⟩ ∧
          ∀ j, j < x.wbytes → byteOf x.wbytes j (m2.reg d).toNat =
            if j = k then (m.reg a).toNat % 256 else (m.byteAt ((m.reg b).toNat + j)).toNat)

/-- 20_memory.md section 7 (the spec's decision D18): what a store writes the next fetch gives, with nothing between. After
a step that stores n bytes to memory (a word of either variant, or a byte) each byte of the next instruction's word is the
stored one where the store covers it, and else as before. -/
def Obligations.StoreIsSeenByNextFetch : Prop :=
  ∀ (x : Xlen) (m : Mach x) (a b : Reg) (i : Instr) (n : Nat), m.status = .running → m.fetchInstr = .ok i →
    (i = .stw .r0 a b ∧ n = x.wbytes ∧ (m.reg b).toNat % n = 0 ∨ i = .stb .r0 a b ∧ n = 1) →
    (m.effectiveAddr b).toNat < Config.memSize x → m.pc.toNat + 4 ≤ Config.memSize x →
      ∃ (m1 : Mach x) (hi lo : Byte), step ⟨x, m⟩ = .next ⟨x, m1⟩ ∧ m1.pc.toNat = m.pc.toNat + 2 ∧
        m1.fetch = .ok (hi ++ lo) ∧
        (∀ k, k < n → (m.effectiveAddr b).toNat + k = m.pc.toNat + 2 → hi.toNat = byteOf n k (m.reg a).toNat) ∧
        (∀ k, k < n → (m.effectiveAddr b).toNat + k = m.pc.toNat + 3 → lo.toNat = byteOf n k (m.reg a).toNat) ∧
        ((∀ k, k < n → (m.effectiveAddr b).toNat + k ≠ m.pc.toNat + 2) → hi = m.byteAt (m.pc.toNat + 2)) ∧
        ((∀ k, k < n → (m.effectiveAddr b).toNat + k ≠ m.pc.toNat + 3) → lo = m.byteAt (m.pc.toNat + 3))

/-- 20_memory.md section 5 (log 16): the address map of both variants of the reference platform. -/
def Obligations.PlatformAddressMap : Prop :=
  (Config.memSize .x16 = 57344 ∧ (Config.spInit .x16).toNat + 2 = 57344 ∧
    [Port.outChar, .outInt, .inChar, .inInt].map (Config.portAddr .x16) = [0xf000, 0xf002, 0xf004, 0xf006]) ∧
  (Config.memSize .x32 = 1048576 ∧ (Config.spInit .x32).toNat + 4 = 1048576 ∧
    [Port.outChar, .outInt, .inChar, .inInt].map (Config.portAddr .x32) =
      [0xf0000000, 0xf0000004, 0xf0000008, 0xf000000c])

/-- 40_computation.md section 1: SLT writes N xor V and SLTU writes the borrow of the subtraction. The definitions of N
and V are general knowledge, not the manual's (93_implementation_defined.md G1; log 15). -/
def Obligations.ComparisonsAreTheAluQualifiers : Prop :=
  ∀ (x : Xlen) (m : Mach x) (d a b : Reg),
    exec (.sltR d a b) ⟨x, m⟩ = .next ⟨x, m.setReg d
      (boolWord x (aluNegative (m.reg a) (m.reg b) != aluOverflow (m.reg a) (m.reg b)))⟩ ∧
    exec (.sltuR d a b) ⟨x, m⟩ = .next ⟨x, m.setReg d (boolWord x (aluBorrow (m.reg a) (m.reg b)))⟩

/-! ## Whole-machine rules -/

/-- 10_state.md section 1 (the spec's decision D10; log 14): whatever instruction runs, no register but its destination
changes; a store, a branch and HCF change none. Only a store changes memory or the output, and only a word load takes
input (20_memory.md section 1). -/
def Obligations.InstructionsChangeOnlyTheirOwn : Prop :=
  ∀ (x : Xlen) (m m' : Mach x) (i : Instr), exec i ⟨x, m⟩ = .next ⟨x, m'⟩ →
    (∀ r, i.dest ≠ some r → m'.reg r = m.reg r) ∧
    (i.isStore = false → m.SameMemory m' ∧ m'.output = m.output) ∧
    ((∀ d b, i ≠ .ldw d .r0 b) → m'.charInput = m.charInput ∧ m'.charsRead = m.charsRead ∧
      m'.intInput = m.intInput ∧ m'.intsRead = m.intsRead) ∧
    (i.isBranch = false → m'.pc = m.pc) ∧ m'.cycles = m.cycles ∧ (i ≠ .hcf → m'.status = m.status)

/-- 10_state.md section 1 (the spec's decision D10; log 14): an instruction reads only its source registers. With any
other values in the other registers it does the same: it faults alike, writes the same value to the same destination,
and does the same to everything that is no register. -/
def Obligations.InstructionsReadOnlyTheirSources : Prop :=
  ∀ (x : Xlen) (m : Mach x) (f : RegFile x) (i : Instr), (∀ r, r ∈ i.sources → f.read r = m.regs.read r) →
    (∀ e, exec i ⟨x, m⟩ = .fault e → exec i ⟨x, { m with regs := f }⟩ = .fault e) ∧
    (∀ m', exec i ⟨x, m⟩ = .next ⟨x, m'⟩ →
      ∃ g, exec i ⟨x, { m with regs := f }⟩ = .next ⟨x, { m' with regs := g }⟩ ∧
        ∀ r, g.read r = if i.dest = some r then m'.regs.read r else f.read r)

/-- 10_state.md section 2: no instruction reads pc into a register or anywhere else but pc itself; and a step changes pc
only by the increment or by a taken branch, whose target is x[RsB] or the incremented pc plus the immediate. The width
and wrap of pc are the spec's decisions D2 and D3 (log 6), the second encoding of the register branches its decision D8
(log 13), the register form of BNZ restored by it (log 17). -/
def Obligations.PcChangesOnlyByIncrementOrBranch : Prop :=
  (∀ (x : Xlen) (m m' : Mach x) (i : Instr) (p : Word x), exec i ⟨x, m⟩ = .next ⟨x, m'⟩ →
    ∃ q, exec i ⟨x, m.setPc p⟩ = .next ⟨x, m'.setPc q⟩ ∧ (i.isBranch = false → q = p ∧ m'.pc = m.pc)) ∧
  (∀ (x : Xlen) (m m' : Mach x), m.status = .running → step ⟨x, m⟩ = .next ⟨x, m'⟩ →
    m'.pc = m.pc + BitVec.ofNat x.bits 2 ∨
    (∃ a b, ((m.fetchInstr = .ok (.bezR .r0 a b) ∨ m.fetchInstr = .ok (.bezRAlias .r0 a b)) ∧ m.reg a = 0 ∨
      (m.fetchInstr = .ok (.bnzR .r0 a b) ∨ m.fetchInstr = .ok (.bnzRAlias .r0 a b)) ∧ m.reg a ≠ 0) ∧
      m'.pc = m.reg b) ∨
    (∃ d imm, (m.fetchInstr = .ok (.bezI d imm) ∧ m.reg d = 0 ∨ m.fetchInstr = .ok (.bnzI d imm) ∧ m.reg d ≠ 0) ∧
      m'.pc = m.pc + BitVec.ofNat x.bits 2 + BitVec.ofInt x.bits imm.toInt))

/-! ## The step -/

/-- 20_memory.md section 7 and 30_encoding.md section 1: when a running machine's pc is even and inside memory and the two
bytes there, the first the more significant, decode to i, a step is exec of i with pc moved past the word. That a completed
instruction is counted and HCF is not the spec derives from one run (70_reset_and_hazards.md section 3, D28; log 19) with
its decision D9 (log 11). -/
def Obligations.StepRunsDecodedInstruction : Prop :=
  ∀ (x : Xlen) (m : Mach x) (i : Instr), m.status = .running → m.pc.toNat % 2 = 0 →
    m.pc.toNat + 2 ≤ Config.memSize x →
    decodeWord (m.byteAt m.pc.toNat ++ m.byteAt (m.pc.toNat + 1)) = .ok i →
      step ⟨x, m⟩ = State.retire (exec i ⟨x, m.setPc (m.pc + BitVec.ofNat x.bits 2)⟩) ∧
      (∀ m', exec i ⟨x, m.setPc (m.pc + BitVec.ofNat x.bits 2)⟩ = .next ⟨x, m'⟩ →
        step ⟨x, m⟩ = .next ⟨x, if m'.status = .running then { m' with cycles := m'.cycles + 1 } else m'⟩) ∧
      (∀ f, exec i ⟨x, m.setPc (m.pc + BitVec.ofNat x.bits 2)⟩ = .fault f → step ⟨x, m⟩ = .fault f)

/-- 20_memory.md sections 4 and 5, 60_exceptions.md section 2 (the spec's decisions D5, D6, D7, D13, D21, D25; log 8, 9,
10): the three faults of fetch and decode, in their order. -/
def Obligations.FetchFaultsInOrder : Prop :=
  ∀ (x : Xlen) (m : Mach x), m.status = .running →
    (m.pc.toNat % 2 = 1 → step ⟨x, m⟩ = .fault (.misalignedFetch m.pc.toNat)) ∧
    (m.pc.toNat % 2 = 0 → Config.memSize x < m.pc.toNat + 2 → step ⟨x, m⟩ = .fault (.accessFault m.pc.toNat)) ∧
    (m.pc.toNat % 2 = 0 → m.pc.toNat + 2 ≤ Config.memSize x →
      ∀ e, decodeWord (m.byteAt m.pc.toNat ++ m.byteAt (m.pc.toNat + 1)) = .error e →
        step ⟨x, m⟩ = .fault (.reservedInstruction (m.byteAt m.pc.toNat ++ m.byteAt (m.pc.toNat + 1))))

/-- 60_exceptions.md section 2 (the spec's decisions D4, D7, D13, D14, D21; log 7, 9, 10): exactly when an instruction's
own execution faults, and with what. A register in a fixed field comes before the address, a misaligned word before an
address that is neither memory nor a port with that access form. -/
def Obligations.ExecFaultsExactlyAsListed : Prop :=
  ∀ (x : Xlen) (m : Mach x) (i : Instr) (f : Fault), exec i ⟨x, m⟩ = .fault f ↔
    (¬ i.WellFormed ∧ f = .reservedInstruction (encode i)) ∨
    (∃ a b, (i = .ldb a .r0 b ∨ i = .stb .r0 a b) ∧ Config.memSize x ≤ (m.reg b).toNat ∧
      f = .accessFault (m.reg b).toNat) ∨
    (∃ a b, (i = .ldw a .r0 b ∨ i = .stw .r0 a b) ∧ (m.reg b).toNat % x.wbytes ≠ 0 ∧
      f = .misalignedData (m.reg b).toNat) ∨
    (∃ a b, (m.reg b).toNat % x.wbytes = 0 ∧ Config.memSize x ≤ (m.reg b).toNat ∧ f = .accessFault (m.reg b).toNat ∧
      (i = .ldw a .r0 b ∧ (m.reg b).toNat ≠ Config.portAddr x .inChar ∧
          (m.reg b).toNat ≠ Config.portAddr x .inInt ∨
        i = .stw .r0 a b ∧ (m.reg b).toNat ≠ Config.portAddr x .outChar ∧
          (m.reg b).toNat ≠ Config.portAddr x .outInt))

/-- 60_exceptions.md section 2 (the spec's decision D19; log 12): a fault is terminal and precise. Recording the outcome of
a faulting step changes the run status and nothing else, and no later step changes anything or does anything but raise
the same fault. -/
def Obligations.FaultsAreTerminalAndPrecise : Prop :=
  ∀ (x : Xlen) (m : Mach x) (f : Fault), step ⟨x, m⟩ = .fault f →
    ∀ n, State.runRecorded (n + 1) ⟨x, m⟩ = ⟨x, { m with status := .faulted f }⟩ ∧
      step (State.runRecorded (n + 1) ⟨x, m⟩) = .fault f

/-- Every instruction has a meaning: no step is a refusal. The model's property, over 30_encoding.md section 3. -/
def Obligations.StepNeverRefuses : Prop :=
  ∀ (s : State) (r : Refusal), step s ≠ .refused r

/-- 70_reset_and_hazards.md section 3 and 60_exceptions.md section 3: a step of a running machine either completes an
instruction, stays running and counts one, or is HCF, which halts and counts nothing. What HCF does, pc after it
included, is the spec's decision D9 (log 11); the count is what it derives from one run (D28; log 19). -/
def Obligations.StepCountsInstructions : Prop :=
  ∀ (x : Xlen) (m m' : Mach x), m.status = .running → step ⟨x, m⟩ = .next ⟨x, m'⟩ →
    (m.fetchInstr ≠ .ok .hcf ∧ m'.status = .running ∧ m'.cycles = m.cycles + 1) ∨
    (m.fetchInstr = .ok .hcf ∧ m'.status = .halted ∧ m'.cycles = m.cycles ∧
      m'.pc = m.pc + BitVec.ofNat x.bits 2)

/-- The model's choice (log 11): a step of a halted run leaves it as it is, whatever it holds. -/
def Obligations.HaltedRunStays : Prop :=
  ∀ (s : State), s.mach.status = .halted → ∀ n, State.runRecorded n s = s

/-- 43_branch.md and 10_state.md section 2: the base of a PC-relative branch is the branch's own address + 2. A taken
branch at the address pc goes to pc + 2 + the signed immediate, between pc - 126 and pc + 129; one not taken goes to
pc + 2. Modulo 2^XLEN by the spec's decisions D2 and D3 (log 6). -/
def Obligations.RelativeBranchBaseIsNextInstruction : Prop :=
  ∀ (x : Xlen) (m : Mach x) (d : Reg) (imm : BitVec 8) (i : Instr), m.status = .running → m.fetchInstr = .ok i →
    i = .bezI d imm ∨ i = .bnzI d imm →
      ∃ m', step ⟨x, m⟩ = .next ⟨x, m'⟩ ∧
        (m'.pc.toNat : Int) =
          (if (i = .bezI d imm ↔ m.reg d = 0) then (m.pc.toNat + (2 + imm.toInt)) % 2 ^ x.bits
            else (m.pc.toNat + 2) % 2 ^ x.bits) ∧
        -126 ≤ 2 + imm.toInt ∧ 2 + imm.toInt ≤ 129

/-- 43_branch.md (the spec's decision D5; log 8): a branch of any form completes whatever its target is, and goes to the
target exactly if its condition holds; the step after it faults if pc is then odd, or even and outside memory. So one not
taken goes on whatever its target is. The sum of a relative branch wraps by the decisions D2 and D3 (log 6), the second
encoding of the register forms is D8 (log 13), the register form of BNZ is restored by the spec (log 17). -/
def Obligations.BadBranchTargetFaultsAtNextFetch : Prop :=
  ∀ (x : Xlen) (m : Mach x) (i : Instr), m.status = .running → m.fetchInstr = .ok i → i.isBranch = true →
    ∃ m', step ⟨x, m⟩ = .next ⟨x, m'⟩ ∧
      (m'.pc.toNat % 2 = 1 → step ⟨x, m'⟩ = .fault (.misalignedFetch m'.pc.toNat)) ∧
      (m'.pc.toNat % 2 = 0 → Config.memSize x ≤ m'.pc.toNat → step ⟨x, m'⟩ = .fault (.accessFault m'.pc.toNat)) ∧
      (∀ a b, i = .bezR .r0 a b ∨ i = .bezRAlias .r0 a b →
        m'.pc = if m.reg a = 0 then m.reg b else m.pc + BitVec.ofNat x.bits 2) ∧
      (∀ a b, i = .bnzR .r0 a b ∨ i = .bnzRAlias .r0 a b →
        m'.pc = if m.reg a = 0 then m.pc + BitVec.ofNat x.bits 2 else m.reg b) ∧
      (∀ d imm, i = .bezI d imm → m'.pc =
        if m.reg d = 0 then m.pc + BitVec.ofNat x.bits 2 + BitVec.ofInt x.bits imm.toInt
        else m.pc + BitVec.ofNat x.bits 2) ∧
      (∀ d imm, i = .bnzI d imm → m'.pc =
        if m.reg d = 0 then m.pc + BitVec.ofNat x.bits 2
        else m.pc + BitVec.ofNat x.bits 2 + BitVec.ofInt x.bits imm.toInt)

/-! ## Reset, load and the invariant -/

/-- 10_state.md section 7: what the spec gives for the start of a run, in both variants: pc at the entry, r7 at the top of
memory, the run status running, the output empty. That State.reset is the 16-bit variant is the model's choice (log 1).
Nothing is said of r0 to r6, to which the spec gives no value. -/
def Obligations.ResetHoldsTheStartValues : Prop :=
  (∀ x, (Mach.reset x).pc.toNat = 0 ∧ (Mach.reset x).status = .running ∧ (Mach.reset x).output = []) ∧
  ((Mach.reset .x16).reg .r7).toNat = 0xdffe ∧ ((Mach.reset .x32).reg .r7).toNat = 0x000ffffc ∧
  State.reset = ⟨.x16, Mach.reset .x16⟩

/-- 70_reset_and_hazards.md section 1 (the spec's decision D27; log 24): an image is loaded exactly if its addresses are
even, distinct and leave room for a word; its words then stand big-endian at their addresses, every other byte is the
free initial one (log 3), and pc is at the entry. -/
def Obligations.LoaderStoresTheImage : Prop :=
  ∀ (x : Xlen) (img : Image),
    ((∃ m, Mach.boot x img = some m) ↔
      (∀ a w, (a, w) ∈ img → a % 2 = 0 ∧ a + 1 < Config.memSize x) ∧ (img.map Prod.fst).Nodup) ∧
    ∀ m, Mach.boot x img = some m → m.pc.toNat = 0 ∧ m.status = .running ∧
      (∀ a w, (a, w) ∈ img → (m.byteAt a).toNat = w.toNat / 256 ∧ (m.byteAt (a + 1)).toNat = w.toNat % 256) ∧
      ∀ addr, (∀ a w, (a, w) ∈ img → addr ≠ a ∧ addr ≠ a + 1) → m.byteAt addr = Config.initialByte addr

/-- Every step keeps the invariant of memory: its canonical form, and nothing stored outside [0, MEM_SIZE) (20_memory.md
section 5; the canonical form is the model's, log 3). -/
def Obligations.StepKeepsMemoryInv : Prop :=
  ∀ s t : State, s.MemoryInv → step s = .next t → t.MemoryInv

/-- The invariant of memory holds right after reset, and after the load of every image the loader accepts
(20_memory.md section 5, 70_reset_and_hazards.md section 1). The canonical form is the model's choice (log 3); which
images the loader accepts is the spec's decision D27 (log 24). -/
def Obligations.ResetHasMemoryInv : Prop :=
  State.reset.MemoryInv ∧ ∀ (x : Xlen) (img : Image) (m : Mach x), Mach.boot x img = some m → State.MemoryInv ⟨x, m⟩

/-! ## Pseudo-operations -/

/-- 45_pseudo_operations.md R201: nop is and r0,r0,r0, the word 0x0000; it rewrites r0 with its own value and changes
nothing. -/
def Obligations.NopChangesNothing : Prop :=
  (∀ (κ : Type) (val : κ → BitVec 16) (o : AsmBranchOp2) (here : BitVec 16),
    Pseudo.expand val o here (.nop : Pseudo κ) = [.andR .r0 .r0 .r0]) ∧
  decodeWord 0x0000 = .ok (.andR .r0 .r0 .r0) ∧
  ∀ (x : Xlen) (m : Mach x), exec (.andR .r0 .r0 .r0) ⟨x, m⟩ = .next ⟨x, m⟩

/-- 45_pseudo_operations.md section 2: after the two LDC that ldi stands for, a 16-bit register holds exactly the constant
whatever it held before, and nothing else has changed. -/
def Obligations.LdiLoadsSixteenBits : Prop :=
  ∀ (m : Mach .x16) (r : Reg) (c : BitVec 16), ∃ m1 m2 hi lo,
    (∀ (o : AsmBranchOp2) (here : BitVec 16),
      Pseudo.expand id o here (.ldi r c) = [.ldc r hi, .ldc r lo]) ∧
    exec (.ldc r hi) ⟨.x16, m⟩ = .next ⟨.x16, m1⟩ ∧ exec (.ldc r lo) ⟨.x16, m1⟩ = .next ⟨.x16, m2⟩ ∧
    m2.reg r = c ∧ m.OnlyReg r m2

/-- 45_pseudo_operations.md: every expansion is a sequence of well-formed instructions, which an assembler may emit
(70_reset_and_hazards.md R308), and its length does not depend on the constants or on the address (30_encoding.md
section 6). -/
def Obligations.ExpansionsAreWellFormed : Prop :=
  ∀ (κ : Type) (p : Pseudo κ) (val : κ → BitVec 16) (o : AsmBranchOp2) (here : BitVec 16),
    (∀ i, i ∈ p.expand val o here → i.WellFormed) ∧ (p.expand val o here).length = p.size

/-! ## Object code -/

/-- 30_encoding.md section 6, 70_reset_and_hazards.md section 1: an image written as object code, one line for each word,
reads back as that image, and an image that loads runs from its object code. The eight digits of a 32-bit line are the
model's choice (log 25); which images load is the spec's decision D27 (log 24). -/
def Obligations.ObjectCodeReadsBack : Prop :=
  ∀ (x : Xlen) (img : Image),
    ((∀ a w, (a, w) ∈ img → a < 16 ^ addrDigits x) → parseObject x (Image.objectCode x img) = some img) ∧
    ∀ m, Mach.boot x img = some m → Mach.bootObject x (Image.objectCode x img) = some m

/-- 30_encoding.md section 6, 70_reset_and_hazards.md section 1 (the spec's decision D27; log 24): what the assembler
writes is the object code of the image where it assembles one, and else a file that no simulator runs; nor does one run the
listing of the parameter debug. That the listing cannot be read as object code follows from its form, which is the model's
choice (log 27), as is how many lines of an object file carry the error pattern (log 26). -/
def Obligations.ErrorsAndListingsAreNotRun : Prop :=
  ∀ (x : Xlen) (o : AsmBranchOp2) (src : List Char),
    (∀ img, assembleText o src = some img → assembleObject o src = Image.objectCode .x16 img) ∧
    (assembleText o src = none → errorPattern ∈ assembleObject o src ∧ Mach.bootObject x (assembleObject o src) = none) ∧
    (debugListing o src ≠ [] → Mach.bootObject x (debugListing o src) = none)
end

