-- ==== Sys2Proof/Laws/Decode.lean ====
section
/-! SUPPORT. The fields of an encoded instruction. -/

namespace Sys2Proof

@[simp] theorem Reg.ofIndex_index (r : Reg) : Reg.ofIndex r.index = r := by cases r <;> rfl

@[simp] theorem Reg.index_ofIndex (n : BitVec 3) : (Reg.ofIndex n).index = n := by
  revert n; decide

/-- The bits of a type R word are its fields (30_encoding.md R72). -/
theorem encodeR_getLsbD (opcode : BitVec 4) (op2 : BitVec 2) (d a b : Reg) (k : Nat) :
    (encodeR opcode op2 d a b).getLsbD k =
      if k < 2 then op2.getLsbD k else if k < 5 then b.index.getLsbD (k - 2)
      else if k < 8 then a.index.getLsbD (k - 5) else if k < 11 then d.index.getLsbD (k - 8)
      else if k = 11 then false else opcode.getLsbD (k - 12) := by
  show (((((opcode ++ 0#1) ++ d.index) ++ a.index) ++ b.index) ++ op2).getLsbD k = _
  simp only [BitVec.getLsbD_append, Nat.sub_sub]
  by_cases h1 : k < 2
  · simp [h1]
  · by_cases h2 : k < 5
    · simp [h1, h2, show k - 2 < 3 by omega]
    · by_cases h3 : k < 8
      · simp [h1, h2, h3, show ¬ k - 2 < 3 by omega, show k - 5 < 3 by omega]
      · by_cases h4 : k < 11
        · simp [h1, h2, h3, h4, show ¬ k - 2 < 3 by omega, show ¬ k - 5 < 3 by omega, show k - 8 < 3 by omega]
        · by_cases h5 : k = 11
          · subst h5; simp
          · simp [h1, h2, h3, h4, h5, show ¬ k - 2 < 3 by omega, show ¬ k - 5 < 3 by omega,
              show ¬ k - 8 < 3 by omega, show ¬ k - 11 = 0 by omega]

/-- The bits of a type I word are its fields (30_encoding.md R73). -/
theorem encodeI_getLsbD (opcode : BitVec 4) (d : Reg) (imm : BitVec 8) (k : Nat) :
    (encodeI opcode d imm).getLsbD k =
      if k < 8 then imm.getLsbD k else if k < 11 then d.index.getLsbD (k - 8)
      else if k = 11 then true else opcode.getLsbD (k - 12) := by
  show (((opcode ++ 1#1) ++ d.index) ++ imm).getLsbD k = _
  simp only [BitVec.getLsbD_append, Nat.sub_sub]
  by_cases h1 : k < 8
  · simp [h1]
  · by_cases h2 : k < 11
    · simp [h1, h2, show k - 8 < 3 by omega]
    · by_cases h3 : k = 11
      · subst h3; simp
      · simp [h1, h2, h3, show ¬ k - 8 < 3 by omega, show ¬ k - 11 = 0 by omega]

section Fields

variable (opcode : BitVec 4) (op2 : BitVec 2) (d a b : Reg) (imm : BitVec 8)

@[simp] theorem opcodeField_encodeR : opcodeField (encodeR opcode op2 d a b) = opcode := by
  apply BitVec.eq_of_getLsbD_eq
  intro k hk
  simp [opcodeField, encodeR_getLsbD, hk, show ¬ 12 + k < 2 by omega, show ¬ 12 + k < 5 by omega,
    show ¬ 12 + k < 8 by omega, show ¬ 12 + k < 11 by omega, show ¬ 12 + k = 11 by omega]

@[simp] theorem immField_encodeR : immField (encodeR opcode op2 d a b) = false := by
  rw [immField, encodeR_getLsbD]; rfl

@[simp] theorem rstField_encodeR : rstField (encodeR opcode op2 d a b) = d := by
  have h : (encodeR opcode op2 d a b).extractLsb' 8 3 = d.index := by
    apply BitVec.eq_of_getLsbD_eq
    intro k hk
    simp [encodeR_getLsbD, hk, show ¬ 8 + k < 2 by omega, show ¬ 8 + k < 5 by omega, show ¬ 8 + k < 8 by omega,
      show 8 + k < 11 by omega]
  simp [rstField, h]

@[simp] theorem rsAField_encodeR : rsAField (encodeR opcode op2 d a b) = a := by
  have h : (encodeR opcode op2 d a b).extractLsb' 5 3 = a.index := by
    apply BitVec.eq_of_getLsbD_eq
    intro k hk
    simp [encodeR_getLsbD, hk, show ¬ 5 + k < 2 by omega, show ¬ 5 + k < 5 by omega, show 5 + k < 8 by omega]
  simp [rsAField, h]

@[simp] theorem rsBField_encodeR : rsBField (encodeR opcode op2 d a b) = b := by
  have h : (encodeR opcode op2 d a b).extractLsb' 2 3 = b.index := by
    apply BitVec.eq_of_getLsbD_eq
    intro k hk
    simp [encodeR_getLsbD, hk, show ¬ 2 + k < 2 by omega, show 2 + k < 5 by omega]
  simp [rsBField, h]

@[simp] theorem op2Field_encodeR : op2Field (encodeR opcode op2 d a b) = op2 := by
  apply BitVec.eq_of_getLsbD_eq
  intro k hk
  simp [op2Field, encodeR_getLsbD, hk]

@[simp] theorem opcodeField_encodeI : opcodeField (encodeI opcode d imm) = opcode := by
  apply BitVec.eq_of_getLsbD_eq
  intro k hk
  simp [opcodeField, encodeI_getLsbD, hk, show ¬ 12 + k < 8 by omega, show ¬ 12 + k < 11 by omega,
    show ¬ 12 + k = 11 by omega]

@[simp] theorem immField_encodeI : immField (encodeI opcode d imm) = true := by
  rw [immField, encodeI_getLsbD]; rfl

@[simp] theorem rstField_encodeI : rstField (encodeI opcode d imm) = d := by
  have h : (encodeI opcode d imm).extractLsb' 8 3 = d.index := by
    apply BitVec.eq_of_getLsbD_eq
    intro k hk
    simp [encodeI_getLsbD, hk, show 8 + k < 11 by omega]
  simp [rstField, h]

@[simp] theorem immediateField_encodeI : immediateField (encodeI opcode d imm) = imm := by
  apply BitVec.eq_of_getLsbD_eq
  intro k hk
  simp [immediateField, encodeI_getLsbD, hk]

end Fields

/-- The two bytes of a word, the most significant first, joined are the word (30_encoding.md R70). -/
theorem wordBytes_join (w : InstrWord) : (w.extractLsb' 8 8 ++ w.extractLsb' 0 8 : InstrWord) = w := by
  apply BitVec.eq_of_getLsbD_eq
  intro k hk
  show (w.extractLsb' 8 8 ++ w.extractLsb' 0 8).getLsbD k = _
  rw [BitVec.getLsbD_append]
  by_cases h : k < 8
  · simp [h]
  · simp [h, show k - 8 < 8 by omega, show 8 + (k - 8) = k by omega]

/-- Decoding the bytes of a word is decoding the word. -/
theorem decode_wordBytes (w : InstrWord) (rest : List Byte) :
    decode (wordBytes w ++ rest) = (decodeWord w).map fun i => (i, rest) := by
  simp [wordBytes, decode, wordBytes_join]

end Sys2Proof
end

