-- ==== Sys2Proof/Laws/Memory.lean ====
section
/-! SUPPORT. Memory: a read after a write, and the canonical form, which every memory operation keeps. -/

namespace Sys2Proof.Machine

@[simp] theorem Memory.read?_nil (addr : Nat) : Memory.read? [] addr = none := rfl

@[simp] theorem Memory.writeBytes_nil (mem : Memory) (addr : Nat) : mem.writeBytes addr [] = mem := by
  cases mem <;> rfl

@[simp] theorem Memory.writeBytes_cons (mem : Memory) (addr : Nat) (b : Byte) (bs : List Byte) :
    mem.writeBytes addr (b :: bs) = (mem.write addr b).writeBytes (addr + 1) bs := by
  cases mem <;> rfl

/-- Reading where a byte was written gives that byte. -/
@[simp] theorem Memory.read?_write_same (mem : Memory) (addr : Nat) (v : Byte) :
    (mem.write addr v).read? addr = some v := by
  induction mem with
  | nil => simp [Memory.write, Memory.read?]
  | cons c rest ih =>
    obtain ⟨a, b⟩ := c
    simp only [Memory.write]
    split
    · rename_i h; simp [Memory.read?, h]
    · rename_i h
      split
      · simp [Memory.read?]
      · rename_i h2; simp [Memory.read?, h, h2, ih]

/-- A memory in canonical form above a bound lists no address at or below the bound. -/
theorem Memory.read?_eq_none_of_rising {mem : Memory} {lo addr : Nat}
    (h : Memory.risingFrom (some lo) mem = true) (hle : addr ≤ lo) : mem.read? addr = none := by
  cases mem with
  | nil => rfl
  | cons c rest =>
    obtain ⟨a, b⟩ := c
    simp only [Memory.risingFrom, Bool.and_eq_true, decide_eq_true_eq] at h
    have h1 : addr ≠ a := by omega
    have h2 : addr < a := by omega
    simp [Memory.read?, h1, h2]

/-- Writing one address leaves every other one as it reads. -/
theorem Memory.read?_write_other (mem : Memory) (addr other : Nat) (v : Byte) (h : other ≠ addr) :
    (mem.write addr v).read? other = mem.read? other := by
  induction mem with
  | nil => simp [Memory.write, Memory.read?, h]
  | cons c rest ih =>
    obtain ⟨a, b⟩ := c
    simp only [Memory.write]
    split
    · rename_i h1; subst h1; simp [Memory.read?, h]
    · rename_i h1
      split
      · rename_i h2
        by_cases h3 : other < addr
        · have h4 : other ≠ a := by omega
          have h5 : other < a := by omega
          simp [Memory.read?, h, h3, h4, h5]
        · simp [Memory.read?, h, h3]
      · simp [Memory.read?, ih]

/-- Writing bytes leaves every address outside them as it reads. -/
theorem Memory.read?_writeBytes_outside (bs : List Byte) (mem : Memory) (addr other : Nat)
    (h : other < addr ∨ addr + bs.length ≤ other) : (mem.writeBytes addr bs).read? other = mem.read? other := by
  induction bs generalizing mem addr with
  | nil => simp
  | cons b bs ih =>
    simp only [List.length_cons] at h
    rw [Memory.writeBytes_cons, ih _ _ (by omega), Memory.read?_write_other _ _ _ _ (by omega)]

/-- Reading one of the bytes just written gives it. -/
theorem Memory.read?_writeBytes_inside (bs : List Byte) (mem : Memory) (addr k : Nat) (h : k < bs.length) :
    (mem.writeBytes addr bs).read? (addr + k) = some bs[k] := by
  induction bs generalizing mem addr k with
  | nil => simp at h
  | cons b bs ih =>
    rw [Memory.writeBytes_cons]
    cases k with
    | zero =>
      rw [Memory.read?_writeBytes_outside _ _ _ _ (by omega)]
      simp
    | succ k =>
      have hk : k < bs.length := by simpa using h
      have := ih (mem.write addr b) (addr + 1) k hk
      rw [show addr + (k + 1) = addr + 1 + k by omega, this]
      simp

/-! ### The canonical form -/

theorem Memory.risingFrom_mono {mem : Memory} {lo lo' : Nat} (hle : lo' ≤ lo)
    (h : Memory.risingFrom (some lo) mem = true) : Memory.risingFrom (some lo') mem = true := by
  cases mem with
  | nil => rfl
  | cons c rest =>
    obtain ⟨a, b⟩ := c
    simp only [Memory.risingFrom, Bool.and_eq_true, decide_eq_true_eq] at h ⊢
    exact ⟨by omega, h.2⟩

theorem Memory.risingFrom_write {mem : Memory} {lo addr : Nat} (v : Byte) (hlo : lo < addr)
    (h : Memory.risingFrom (some lo) mem = true) : Memory.risingFrom (some lo) (mem.write addr v) = true := by
  induction mem generalizing lo with
  | nil => simp [Memory.write, Memory.risingFrom, hlo]
  | cons c rest ih =>
    obtain ⟨a, b⟩ := c
    simp only [Memory.risingFrom, Bool.and_eq_true, decide_eq_true_eq] at h
    simp only [Memory.write]
    split
    · simp [Memory.risingFrom, h]
    · split
      · rename_i h2; simp [Memory.risingFrom, hlo, h2, h.2]
      · rename_i h1 h2
        simp only [Memory.risingFrom, Bool.and_eq_true, decide_eq_true_eq]
        exact ⟨h.1, ih (by omega) h.2⟩

/-- Writing a byte keeps the canonical form. -/
theorem Memory.wf_write {mem : Memory} (addr : Nat) (v : Byte) (h : mem.wf = true) : (mem.write addr v).wf = true := by
  cases mem with
  | nil => rfl
  | cons c rest =>
    obtain ⟨a, b⟩ := c
    simp only [Memory.wf, Memory.risingFrom] at h
    simp only [Memory.wf, Memory.write]
    split
    · simpa [Memory.risingFrom] using h
    · split
      · rename_i h2; simp [Memory.risingFrom, h2, h]
      · simp only [Memory.risingFrom]
        exact Memory.risingFrom_write v (by omega) h

/-- Writing bytes keeps the canonical form. -/
theorem Memory.wf_writeBytes (bs : List Byte) {mem : Memory} (addr : Nat) (h : mem.wf = true) :
    (mem.writeBytes addr bs).wf = true := by
  induction bs generalizing mem addr with
  | nil => simpa using h
  | cons b bs ih => rw [Memory.writeBytes_cons]; exact ih _ (Memory.wf_write addr b h)

/-- Loading an image keeps the canonical form. -/
theorem Memory.wf_load (img : Image) {mem : Memory} (h : mem.wf = true) : (mem.load img).wf = true := by
  induction img generalizing mem with
  | nil => cases mem <;> simpa [Memory.load] using h
  | cons c rest ih => obtain ⟨a, w⟩ := c; rw [Memory.load]; exact ih (Memory.wf_writeBytes _ _ h)

/-- The memory of the reset machine is in canonical form. -/
theorem reset_mem_wf : State.reset.mach.mem.wf = true := rfl

/-- The memory of every machine at the start of a run is in canonical form. -/
theorem atStart_mem_wf {x : Xlen} {img : Image} {m : Mach x} (h : m.AtStart img) : m.mem.wf = true := by
  rw [h.2.2.1]; exact Memory.wf_load img rfl

/-- A store keeps the canonical form. -/
theorem memWrite_mem_wf {x : Xlen} {w : Nat} (m : Mach x) (addr n : Nat) (v : BitVec w) (h : m.mem.wf = true) :
    (m.memWrite addr n v).mem.wf = true :=
  Memory.wf_writeBytes _ _ h

/-- Placing a word at pc keeps the canonical form. -/
theorem placeWord_mem_wf {x : Xlen} (m : Mach x) (w : InstrWord) (h : m.mem.wf = true) :
    (m.placeWord w).mem.wf = true :=
  Memory.wf_writeBytes _ _ h

/-! ### The listed addresses -/

theorem Memory.below_write {mem : Memory} {limit addr : Nat} (v : Byte) (ha : addr < limit)
    (h : mem.below limit = true) : (mem.write addr v).below limit = true := by
  induction mem with
  | nil => simp [Memory.write, Memory.below, ha]
  | cons c rest ih =>
    obtain ⟨a, b⟩ := c
    simp only [Memory.below, List.all_cons, Bool.and_eq_true, decide_eq_true_eq] at h
    simp only [Memory.write]
    split
    · simp only [Memory.below, List.all_cons, Bool.and_eq_true, decide_eq_true_eq]; exact h
    · split
      · simp only [Memory.below, List.all_cons, Bool.and_eq_true, decide_eq_true_eq]; exact ⟨ha, h⟩
      · simp only [Memory.below, List.all_cons, Bool.and_eq_true, decide_eq_true_eq]; exact ⟨h.1, ih h.2⟩

/-- Writing bytes below a limit lists nothing at or above it. -/
theorem Memory.below_writeBytes (bs : List Byte) {mem : Memory} {limit addr : Nat} (ha : addr + bs.length ≤ limit)
    (h : mem.below limit = true) : (mem.writeBytes addr bs).below limit = true := by
  induction bs generalizing mem addr with
  | nil => simpa using h
  | cons b bs ih =>
    simp only [List.length_cons] at ha
    rw [Memory.writeBytes_cons]
    exact ih (by omega) (Memory.below_write b (by omega) h)

/-! ### Bytes of values -/

@[simp] theorem splitBE_length {w : Nat} (v : BitVec w) (n : Nat) : (splitBE v n).length = n := by
  induction n with
  | zero => rfl
  | succ n ih => simp [splitBE, ih]

/-- Byte k of a split value, counted from the most significant (20_memory.md R43). -/
theorem splitBE_getElem {w : Nat} (v : BitVec w) (n k : Nat) (h : k < n) :
    (splitBE v n)[k]'(by simpa using h) = v.extractLsb' (8 * (n - 1 - k)) 8 := by
  induction n generalizing k with
  | zero => omega
  | succ n ih =>
    cases k with
    | zero => simp [splitBE]
    | succ k =>
      simp only [splitBE, List.getElem_cons_succ]
      rw [ih k (by omega)]
      congr 2; omega

theorem bytesAt_length {x : Xlen} (m : Mach x) (addr n : Nat) : (m.bytesAt addr n).length = n := by
  induction n generalizing addr with
  | zero => rfl
  | succ n ih => simp [Mach.bytesAt, ih]

/-! ### What a machine reads after a store -/

/-- A stored byte reads back (20_memory.md R43, R55). -/
theorem memWrite_byteAt_inside {x : Xlen} {w : Nat} (m : Mach x) (addr n k : Nat) (v : BitVec w) (h : k < n) :
    (m.memWrite addr n v).byteAt (addr + k) = v.extractLsb' (8 * (n - 1 - k)) 8 := by
  have hk : k < (splitBE v n).length := by simpa using h
  simp only [Mach.byteAt, Mach.memWrite]
  rw [Memory.read?_writeBytes_inside _ _ _ _ hk, splitBE_getElem v n k h, Option.getD_some]

/-- A store leaves every byte outside it as it reads. -/
theorem memWrite_byteAt_outside {x : Xlen} {w : Nat} (m : Mach x) (addr n a : Nat) (v : BitVec w)
    (h : a < addr ∨ addr + n ≤ a) : (m.memWrite addr n v).byteAt a = m.byteAt a := by
  simp only [Mach.byteAt, Mach.memWrite]
  rw [Memory.read?_writeBytes_outside _ _ _ _ (by simpa using h)]

end Sys2Proof.Machine
end

