-- ==== Sys2Proof/Laws/Object.lean ====
section
/-! SUPPORT. The object code: a line that is written reads back, and what makes a file be rejected. -/

namespace Sys2Proof.Machine

/-! ## Hexadecimal digits -/

theorem hexDigit_hexChar {n : Nat} (h : n < 16) : hexDigit (hexChar n) = some n := by
  revert n; decide

theorem hexValue_append (as bs : List Char) (acc : Nat) :
    hexValue acc (as ++ bs) = (hexValue acc as).bind fun v => hexValue v bs := by
  induction as generalizing acc with
  | nil => rfl
  | cons a as ih =>
    simp only [List.cons_append, hexValue]
    cases hexDigit a with
    | none => rfl
    | some d => exact ih _

@[simp] theorem hexDigits_length (k n : Nat) : (hexDigits k n).length = k := by
  induction k generalizing n with
  | zero => rfl
  | succ k ih => simp [hexDigits, ih]

/-- The digits of a number that fits in them stand for it. -/
theorem hexValue_hexDigits (k n acc : Nat) (h : n < 16 ^ k) : hexValue acc (hexDigits k n) = some (acc * 16 ^ k + n) := by
  induction k generalizing n with
  | zero => simp at h; simp [hexDigits, hexValue, h]
  | succ k ih =>
    have h' : n / 16 < 16 ^ k := by rw [Nat.pow_succ] at h; omega
    simp only [hexDigits, hexValue_append, ih _ h', Option.bind_some, hexValue,
      hexDigit_hexChar (Nat.mod_lt n (show 16 > 0 by decide))]
    congr 1
    rw [Nat.pow_succ, Nat.mul_add, ← Nat.mul_assoc, Nat.mul_comm (16 * acc)]
    have := Nat.div_add_mod n 16
    have e : acc * (16 ^ k * 16) = 16 ^ k * (16 * acc) := by ac_rfl
    have e2 : 16 * acc * 16 ^ k = 16 ^ k * (16 * acc) := by ac_rfl
    omega

/-- A line that holds something which is no hexadecimal digit has no value. -/
theorem hexValue_none {c : Char} (hc : hexDigit c = none) (cs : List Char) (acc : Nat) (h : c ∈ cs) :
    hexValue acc cs = none := by
  induction cs generalizing acc with
  | nil => cases h
  | cons a as ih =>
    rcases List.mem_cons.mp h with rfl | h
    · simp [hexValue, hc]
    · simp only [hexValue]
      cases hexDigit a with
      | none => rfl
      | some d => exact ih _ h

/-! ## Lines -/

/-- A written line reads back (30_encoding.md R97, 70_reset_and_hazards.md R301). -/
theorem parseObjectLine_objectLine (x : Xlen) (a : Nat) (w : InstrWord) (h : a < 16 ^ addrDigits x) :
    parseObjectLine x (objectLine x (a, w)) = some (a, w) := by
  have h4 : hexDigits 4 w.toNat =
      [hexChar (w.toNat / 4096 % 16), hexChar (w.toNat / 256 % 16), hexChar (w.toNat / 16 % 16),
        hexChar (w.toNat % 16)] := by
    simp [hexDigits, Nat.div_div_eq_div_mul]
  have hw := hexValue_hexDigits 4 w.toNat 0 (by have := w.isLt; omega)
  rw [h4] at hw
  have ht : (objectLine x (a, w)).take (addrDigits x) = hexDigits (addrDigits x) a := by
    simp [objectLine, List.append_assoc]
  have hd : (objectLine x (a, w)).drop (addrDigits x) = ' ' :: hexDigits 4 w.toNat := by
    simp [objectLine, List.append_assoc]
  have ha := hexValue_hexDigits (addrDigits x) a 0 h
  simp only [parseObjectLine, ht, hd, h4, ha, hw]
  simp

/-- A line that is no hexadecimal digits and one space is no line of object code. -/
theorem parseObjectLine_none {x : Xlen} {c : Char} {line : List Char} (hc : hexDigit c = none) (hs : c ≠ ' ')
    (h : c ∈ line) : parseObjectLine x line = none := by
  rw [← List.take_append_drop (addrDigits x) line] at h
  unfold parseObjectLine
  split
  · rename_i d e f g hd
    rw [hd] at h
    rcases List.mem_append.mp h with h | h
    · simp [hexValue_none hc _ 0 h]
    · have h : c ∈ [d, e, f, g] := by simpa [hs] using h
      rw [hexValue_none hc _ 0 h]
      split
      · rename_i h1; cases h1
      · rfl
  · rfl

/-! ## Files -/

/-- A written image reads back. -/
theorem parseObject_objectCode (x : Xlen) (img : Image) (h : ∀ a w, (a, w) ∈ img → a < 16 ^ addrDigits x) :
    parseObject x (Image.objectCode x img) = some img := by
  induction img with
  | nil => rfl
  | cons c img ih =>
    simp only [Image.objectCode, List.map_cons, parseObject] at ih ⊢
    rw [parseObjectLine_objectLine x c.1 c.2 (h _ _ List.mem_cons_self), ih fun a w hm => h a w (List.mem_cons_of_mem _ hm)]

/-- One bad line rejects a file. -/
theorem parseObject_none {x : Xlen} {lines : List (List Char)} {l : List Char} (hl : parseObjectLine x l = none)
    (h : l ∈ lines) : parseObject x lines = none := by
  induction lines with
  | nil => cases h
  | cons a as ih =>
    simp only [parseObject]
    rcases List.mem_cons.mp h with rfl | h
    · rw [hl]
    · rw [ih h]
      split
      · rename_i h1; cases h1
      · rfl

/-- A file with a bad line starts no run. -/
theorem bootObject_none {x : Xlen} {lines : List (List Char)} {l : List Char} (hl : parseObjectLine x l = none)
    (h : l ∈ lines) : Mach.bootObject x lines = none := by
  simp [Mach.bootObject, parseObject_none hl h]

/-! ## What the assembler writes -/

/-- The object file of a source without errors is the object code of its image. -/
theorem objectFrom_defined (tab : Symbols) (o : AsmBranchOp2) (here : Nat) (ls : List AsmLine)
    (h : ls.all (AsmLine.defined tab) = true) :
    objectFrom tab o here ls = Image.objectCode .x16 (emitFrom tab o here ls) := by
  induction ls generalizing here with
  | nil => rfl
  | cons l ls ih =>
    simp only [List.all_cons, Bool.and_eq_true] at h
    simp only [objectFrom, emitFrom, AsmLine.objectLines, h.1, if_true, ih _ h.2]
    simp [Image.objectCode]

/-- The object file of a source with an error carries the error pattern. -/
theorem objectFrom_error (tab : Symbols) (o : AsmBranchOp2) (here : Nat) (ls : List AsmLine)
    (h : ls.all (AsmLine.defined tab) = false) : errorPattern ∈ objectFrom tab o here ls := by
  induction ls generalizing here with
  | nil => cases h
  | cons l ls ih =>
    simp only [objectFrom, List.mem_append]
    cases hl : l.defined tab with
    | false => left; simp [AsmLine.objectLines, hl]
    | true => right; exact ih _ (by simpa [hl] using h)

/-! ## The listing -/

/-- A row of the listing holds a tab. -/
theorem tab_mem_listingRow (line : Nat) (rest : List Char) : '\t' ∈ listingRow line rest := by
  simp [listingRow]

theorem tab_mem_codeRows (line here : Nat) (ws : List InstrWord) (cs : List (List Char)) :
    ∀ row, row ∈ codeRows line here ws cs → '\t' ∈ row := by
  induction ws generalizing here cs with
  | nil => cases cs <;> intro row h <;> cases h
  | cons w ws ih =>
    cases cs <;> simp only [codeRows, List.mem_cons] <;> rintro row (rfl | h) <;>
      first | exact tab_mem_listingRow _ _ | exact ih _ _ row h

theorem tab_mem_listingRows (tab : Symbols) (o : AsmBranchOp2) (line here : Nat) (source : List Char) (l : AsmLine) :
    ∀ row, row ∈ l.listingRows tab o line here source → '\t' ∈ row := by
  intro row h
  unfold AsmLine.listingRows at h
  split at h
  · cases l with
    | label name => simp only [List.mem_singleton] at h; exact h ▸ tab_mem_listingRow _ _
    | instr i => exact tab_mem_codeRows _ _ _ _ row h
    | pseudo p => exact tab_mem_codeRows _ _ _ _ row h
    | ints vs => exact tab_mem_codeRows _ _ _ _ row h
    | text bs => exact tab_mem_codeRows _ _ _ _ row h
    | bad => exact tab_mem_codeRows _ _ _ _ row h
  · simp only [List.mem_singleton] at h; exact h ▸ tab_mem_listingRow _ _

theorem tab_mem_sourceRows (tab : Symbols) (o : AsmBranchOp2) (line here : Nat) (source : List Char) (ls : List AsmLine) :
    ∀ row, row ∈ sourceRows tab o line here source ls → '\t' ∈ row := by
  induction ls with
  | nil => intro row h; cases h
  | cons l ls ih =>
    cases ls with
    | nil => exact tab_mem_listingRows tab o line here source l
    | cons l' ls => exact ih

/-- Every row of a listing holds a tab, which no line of object code does. -/
theorem tab_mem_listingFrom (tab : Symbols) (o : AsmBranchOp2) (line here : Nat) (src : List (List Char)) :
    ∀ row, row ∈ listingFrom tab o line here src → '\t' ∈ row := by
  induction src generalizing line here with
  | nil => intro row h; cases h
  | cons source rest ih =>
    intro row h
    rcases List.mem_append.mp h with h | h
    · exact tab_mem_sourceRows _ _ _ _ _ _ row h
    · exact ih _ _ row h

end Sys2Proof.Machine
end

