-- ==== Sys2Proof/Laws/State.lean ====
section
/-! SUPPORT. One lemma per field per update of a machine, so that no proof unfolds a record update. -/

namespace Sys2Proof.Machine

variable {x : Xlen} (m : Mach x)

/-! ### setReg -/

@[simp] theorem setReg_regs (r : Reg) (v : Word x) : (m.setReg r v).regs = m.regs.write r v := rfl
@[simp] theorem setReg_pc (r : Reg) (v : Word x) : (m.setReg r v).pc = m.pc := rfl
@[simp] theorem setReg_mem (r : Reg) (v : Word x) : (m.setReg r v).mem = m.mem := rfl
@[simp] theorem setReg_status (r : Reg) (v : Word x) : (m.setReg r v).status = m.status := rfl
@[simp] theorem setReg_output (r : Reg) (v : Word x) : (m.setReg r v).output = m.output := rfl
@[simp] theorem setReg_charInput (r : Reg) (v : Word x) : (m.setReg r v).charInput = m.charInput := rfl
@[simp] theorem setReg_charsRead (r : Reg) (v : Word x) : (m.setReg r v).charsRead = m.charsRead := rfl
@[simp] theorem setReg_intInput (r : Reg) (v : Word x) : (m.setReg r v).intInput = m.intInput := rfl
@[simp] theorem setReg_intsRead (r : Reg) (v : Word x) : (m.setReg r v).intsRead = m.intsRead := rfl
@[simp] theorem setReg_cycles (r : Reg) (v : Word x) : (m.setReg r v).cycles = m.cycles := rfl
@[simp] theorem setReg_byteAt (r : Reg) (v : Word x) (a : Nat) : (m.setReg r v).byteAt a = m.byteAt a := rfl

/-! ### setPc -/

@[simp] theorem setPc_regs (t : Word x) : (m.setPc t).regs = m.regs := rfl
@[simp] theorem setPc_pc (t : Word x) : (m.setPc t).pc = t := rfl
@[simp] theorem setPc_mem (t : Word x) : (m.setPc t).mem = m.mem := rfl
@[simp] theorem setPc_status (t : Word x) : (m.setPc t).status = m.status := rfl
@[simp] theorem setPc_output (t : Word x) : (m.setPc t).output = m.output := rfl
@[simp] theorem setPc_charInput (t : Word x) : (m.setPc t).charInput = m.charInput := rfl
@[simp] theorem setPc_charsRead (t : Word x) : (m.setPc t).charsRead = m.charsRead := rfl
@[simp] theorem setPc_intInput (t : Word x) : (m.setPc t).intInput = m.intInput := rfl
@[simp] theorem setPc_intsRead (t : Word x) : (m.setPc t).intsRead = m.intsRead := rfl
@[simp] theorem setPc_cycles (t : Word x) : (m.setPc t).cycles = m.cycles := rfl
@[simp] theorem setPc_reg (t : Word x) (q : Reg) : (m.setPc t).reg q = m.reg q := rfl
@[simp] theorem setPc_byteAt (t : Word x) (a : Nat) : (m.setPc t).byteAt a = m.byteAt a := rfl

/-! ### advance -/

@[simp] theorem advance_regs : m.advance.regs = m.regs := rfl
@[simp] theorem advance_pc : m.advance.pc = m.pc + BitVec.ofNat x.bits Config.ilenBytes := rfl
@[simp] theorem advance_mem : m.advance.mem = m.mem := rfl
@[simp] theorem advance_status : m.advance.status = m.status := rfl
@[simp] theorem advance_output : m.advance.output = m.output := rfl
@[simp] theorem advance_charInput : m.advance.charInput = m.charInput := rfl
@[simp] theorem advance_charsRead : m.advance.charsRead = m.charsRead := rfl
@[simp] theorem advance_intInput : m.advance.intInput = m.intInput := rfl
@[simp] theorem advance_intsRead : m.advance.intsRead = m.intsRead := rfl
@[simp] theorem advance_cycles : m.advance.cycles = m.cycles := rfl
@[simp] theorem advance_reg (q : Reg) : m.advance.reg q = m.reg q := rfl
@[simp] theorem advance_byteAt (a : Nat) : m.advance.byteAt a = m.byteAt a := rfl

/-! ### memWrite -/

@[simp] theorem memWrite_regs {w : Nat} (addr n : Nat) (v : BitVec w) : (m.memWrite addr n v).regs = m.regs := rfl
@[simp] theorem memWrite_pc {w : Nat} (addr n : Nat) (v : BitVec w) : (m.memWrite addr n v).pc = m.pc := rfl
@[simp] theorem memWrite_mem {w : Nat} (addr n : Nat) (v : BitVec w) : (m.memWrite addr n v).mem = m.mem.writeBytes addr (splitBE v n) := rfl
@[simp] theorem memWrite_status {w : Nat} (addr n : Nat) (v : BitVec w) : (m.memWrite addr n v).status = m.status := rfl
@[simp] theorem memWrite_output {w : Nat} (addr n : Nat) (v : BitVec w) : (m.memWrite addr n v).output = m.output := rfl
@[simp] theorem memWrite_charInput {w : Nat} (addr n : Nat) (v : BitVec w) : (m.memWrite addr n v).charInput = m.charInput := rfl
@[simp] theorem memWrite_charsRead {w : Nat} (addr n : Nat) (v : BitVec w) : (m.memWrite addr n v).charsRead = m.charsRead := rfl
@[simp] theorem memWrite_intInput {w : Nat} (addr n : Nat) (v : BitVec w) : (m.memWrite addr n v).intInput = m.intInput := rfl
@[simp] theorem memWrite_intsRead {w : Nat} (addr n : Nat) (v : BitVec w) : (m.memWrite addr n v).intsRead = m.intsRead := rfl
@[simp] theorem memWrite_cycles {w : Nat} (addr n : Nat) (v : BitVec w) : (m.memWrite addr n v).cycles = m.cycles := rfl
@[simp] theorem memWrite_reg {w : Nat} (addr n : Nat) (v : BitVec w) (q : Reg) : (m.memWrite addr n v).reg q = m.reg q := rfl

/-! ### emit -/

@[simp] theorem emit_regs (e : OutEvent x) : (m.emit e).regs = m.regs := rfl
@[simp] theorem emit_pc (e : OutEvent x) : (m.emit e).pc = m.pc := rfl
@[simp] theorem emit_mem (e : OutEvent x) : (m.emit e).mem = m.mem := rfl
@[simp] theorem emit_status (e : OutEvent x) : (m.emit e).status = m.status := rfl
@[simp] theorem emit_output (e : OutEvent x) : (m.emit e).output = m.output ++ [e] := rfl
@[simp] theorem emit_charInput (e : OutEvent x) : (m.emit e).charInput = m.charInput := rfl
@[simp] theorem emit_charsRead (e : OutEvent x) : (m.emit e).charsRead = m.charsRead := rfl
@[simp] theorem emit_intInput (e : OutEvent x) : (m.emit e).intInput = m.intInput := rfl
@[simp] theorem emit_intsRead (e : OutEvent x) : (m.emit e).intsRead = m.intsRead := rfl
@[simp] theorem emit_cycles (e : OutEvent x) : (m.emit e).cycles = m.cycles := rfl
@[simp] theorem emit_reg (e : OutEvent x) (q : Reg) : (m.emit e).reg q = m.reg q := rfl
@[simp] theorem emit_byteAt (e : OutEvent x) (a : Nat) : (m.emit e).byteAt a = m.byteAt a := rfl

/-! ### takeChar -/

@[simp] theorem takeChar_regs : m.takeChar.regs = m.regs := rfl
@[simp] theorem takeChar_pc : m.takeChar.pc = m.pc := rfl
@[simp] theorem takeChar_mem : m.takeChar.mem = m.mem := rfl
@[simp] theorem takeChar_status : m.takeChar.status = m.status := rfl
@[simp] theorem takeChar_output : m.takeChar.output = m.output := rfl
@[simp] theorem takeChar_charInput : m.takeChar.charInput = m.charInput.tail := rfl
@[simp] theorem takeChar_charsRead : m.takeChar.charsRead = m.charsRead + 1 := rfl
@[simp] theorem takeChar_intInput : m.takeChar.intInput = m.intInput := rfl
@[simp] theorem takeChar_intsRead : m.takeChar.intsRead = m.intsRead := rfl
@[simp] theorem takeChar_cycles : m.takeChar.cycles = m.cycles := rfl
@[simp] theorem takeChar_reg (q : Reg) : m.takeChar.reg q = m.reg q := rfl
@[simp] theorem takeChar_byteAt (a : Nat) : m.takeChar.byteAt a = m.byteAt a := rfl

/-! ### takeInt -/

@[simp] theorem takeInt_regs : m.takeInt.regs = m.regs := rfl
@[simp] theorem takeInt_pc : m.takeInt.pc = m.pc := rfl
@[simp] theorem takeInt_mem : m.takeInt.mem = m.mem := rfl
@[simp] theorem takeInt_status : m.takeInt.status = m.status := rfl
@[simp] theorem takeInt_output : m.takeInt.output = m.output := rfl
@[simp] theorem takeInt_charInput : m.takeInt.charInput = m.charInput := rfl
@[simp] theorem takeInt_charsRead : m.takeInt.charsRead = m.charsRead := rfl
@[simp] theorem takeInt_intInput : m.takeInt.intInput = m.intInput.tail := rfl
@[simp] theorem takeInt_intsRead : m.takeInt.intsRead = m.intsRead + 1 := rfl
@[simp] theorem takeInt_cycles : m.takeInt.cycles = m.cycles := rfl
@[simp] theorem takeInt_reg (q : Reg) : m.takeInt.reg q = m.reg q := rfl
@[simp] theorem takeInt_byteAt (a : Nat) : m.takeInt.byteAt a = m.byteAt a := rfl

/-! ### setStatus -/

@[simp] theorem setStatus_regs (st : RunStatus) : (m.setStatus st).regs = m.regs := rfl
@[simp] theorem setStatus_pc (st : RunStatus) : (m.setStatus st).pc = m.pc := rfl
@[simp] theorem setStatus_mem (st : RunStatus) : (m.setStatus st).mem = m.mem := rfl
@[simp] theorem setStatus_status (st : RunStatus) : (m.setStatus st).status = st := rfl
@[simp] theorem setStatus_output (st : RunStatus) : (m.setStatus st).output = m.output := rfl
@[simp] theorem setStatus_charInput (st : RunStatus) : (m.setStatus st).charInput = m.charInput := rfl
@[simp] theorem setStatus_charsRead (st : RunStatus) : (m.setStatus st).charsRead = m.charsRead := rfl
@[simp] theorem setStatus_intInput (st : RunStatus) : (m.setStatus st).intInput = m.intInput := rfl
@[simp] theorem setStatus_intsRead (st : RunStatus) : (m.setStatus st).intsRead = m.intsRead := rfl
@[simp] theorem setStatus_cycles (st : RunStatus) : (m.setStatus st).cycles = m.cycles := rfl
@[simp] theorem setStatus_reg (st : RunStatus) (q : Reg) : (m.setStatus st).reg q = m.reg q := rfl
@[simp] theorem setStatus_byteAt (st : RunStatus) (a : Nat) : (m.setStatus st).byteAt a = m.byteAt a := rfl

/-! ### placeWord -/

@[simp] theorem placeWord_regs (w : InstrWord) : (m.placeWord w).regs = m.regs := rfl
@[simp] theorem placeWord_pc (w : InstrWord) : (m.placeWord w).pc = m.pc := rfl
@[simp] theorem placeWord_mem (w : InstrWord) : (m.placeWord w).mem = m.mem.writeBytes m.pc.toNat (wordBytes w) := rfl
@[simp] theorem placeWord_status (w : InstrWord) : (m.placeWord w).status = m.status := rfl
@[simp] theorem placeWord_output (w : InstrWord) : (m.placeWord w).output = m.output := rfl
@[simp] theorem placeWord_charInput (w : InstrWord) : (m.placeWord w).charInput = m.charInput := rfl
@[simp] theorem placeWord_charsRead (w : InstrWord) : (m.placeWord w).charsRead = m.charsRead := rfl
@[simp] theorem placeWord_intInput (w : InstrWord) : (m.placeWord w).intInput = m.intInput := rfl
@[simp] theorem placeWord_intsRead (w : InstrWord) : (m.placeWord w).intsRead = m.intsRead := rfl
@[simp] theorem placeWord_cycles (w : InstrWord) : (m.placeWord w).cycles = m.cycles := rfl
@[simp] theorem placeWord_reg (w : InstrWord) (q : Reg) : (m.placeWord w).reg q = m.reg q := rfl

/-! ### The register file -/

@[simp] theorem RegFile.read_write_same (f : RegFile x) (r : Reg) (v : Word x) : (f.write r v).read r = v := by
  cases r <;> rfl

theorem RegFile.read_write_other (f : RegFile x) (r q : Reg) (v : Word x) (h : q ≠ r) :
    (f.write r v).read q = f.read q := by
  cases r <;> cases q <;> first | rfl | exact absurd rfl h

theorem RegFile.write_write_same (f : RegFile x) (r : Reg) (v w : Word x) : (f.write r v).write r w = f.write r w := by
  cases r <;> rfl

theorem RegFile.write_comm (f : RegFile x) (r q : Reg) (v w : Word x) (h : q ≠ r) :
    (f.write r v).write q w = (f.write q w).write r v := by
  cases r <;> cases q <;> first | rfl | exact absurd rfl h

@[simp] theorem setReg_reg_same (r : Reg) (v : Word x) : (m.setReg r v).reg r = v :=
  RegFile.read_write_same _ _ _

theorem setReg_reg_other (r q : Reg) (v : Word x) (h : q ≠ r) : (m.setReg r v).reg q = m.reg q :=
  RegFile.read_write_other _ _ _ _ h

/-! ### The reset machine -/

@[simp] theorem reset_pc : (Mach.reset x).pc = Config.entry x := rfl
@[simp] theorem reset_mem : (Mach.reset x).mem = [] := rfl
@[simp] theorem reset_status : (Mach.reset x).status = .running := rfl
@[simp] theorem reset_output : (Mach.reset x).output = [] := rfl
@[simp] theorem reset_sp : (Mach.reset x).reg .sp = Config.spInit x := rfl

end Sys2Proof.Machine
end

