-- ==== Sys2Proof/Laws/Ops.lean ====
section
/-! SUPPORT. For each shared operation, once, everything it can do. -/

namespace Sys2Proof.Machine

variable {x : Xlen}

/-! ### Running one instruction -/

/-- What performing an instruction answers, for a machine written out. -/
@[simp] theorem perform_mk (m : Mach x) (f : Mach x → Except Fault (Mach x)) :
    State.perform ⟨x, m⟩ f = match f m with
      | .ok m' => .next ⟨x, m'⟩
      | .error r => .fault r := by
  simp only [State.perform]
  cases f m <;> rfl

/-- A performed instruction that answers a next state kept the variant and gave the machine of that state. -/
theorem perform_next {m : Mach x} {f : Mach x → Except Fault (Mach x)} {t : State}
    (h : State.perform ⟨x, m⟩ f = .next t) : ∃ m', f m = .ok m' ∧ t = ⟨x, m'⟩ := by
  rw [perform_mk] at h
  split at h
  · rename_i m' hm; exact ⟨m', hm, by cases h; rfl⟩
  · cases h

/-- A performed instruction that faults raised that fault. -/
theorem perform_fault {m : Mach x} {f : Mach x → Except Fault (Mach x)} {r : Fault}
    (h : State.perform ⟨x, m⟩ f = .fault r) : f m = .error r := by
  rw [perform_mk] at h
  split at h
  · cases h
  · rename_i e he; cases h; exact he

/-- Performing an instruction never refuses. -/
theorem perform_not_refused (s : State) (f : Mach s.xlen → Except Fault (Mach s.xlen)) (r : Refusal) :
    s.perform f ≠ .refused r := by
  unfold State.perform
  split <;> simp

/-- A computation always completes, and writes one register. -/
@[simp] theorem compute_mk (m : Mach x) (d : Reg) (value : Mach x → Word x) :
    State.compute ⟨x, m⟩ d value = .next ⟨x, m.setReg d (value m)⟩ := rfl

/-- An instruction whose fixed field is r0 goes on. -/
theorem withFixedField_ok {α : Type} {i : Instr} (h : i.WellFormed) (go : Except Fault α) : withFixedField i go = go :=
  if_pos h

/-- An instruction whose fixed field is not r0 is reserved. -/
theorem withFixedField_error {α : Type} {i : Instr} (h : ¬ i.WellFormed) (go : Except Fault α) :
    withFixedField i go = .error (.reservedInstruction (encode i)) :=
  if_neg h

/-- Retiring an outcome that is a next state counts one instruction if the run goes on, and none otherwise. -/
theorem retire_next {o : Host.Outcome State Fault Refusal} {t : State} (h : State.retire o = .next t) :
    ∃ u, o = .next u ∧ ((u.mach.status = .running ∧ t = { u with mach := { u.mach with cycles := u.mach.cycles + 1 } }) ∨
      (u.mach.status ≠ .running ∧ t = u)) := by
  cases o with
  | fault r => cases h
  | refused r => cases h
  | next u =>
    refine ⟨u, rfl, ?_⟩
    simp only [State.retire] at h
    split at h <;> rename_i hs <;> cases h
    · exact .inl ⟨hs, rfl⟩
    · exact .inr ⟨by simp [hs], rfl⟩
    · exact .inr ⟨by simp [hs], rfl⟩

/-! ### Fetch -/

/-- What a fetch can do, in the order of its checks. -/
theorem fetch_cases (m : Mach x) :
    (m.pc.toNat % 2 ≠ 0 ∧ m.fetch = .error (.misalignedFetch m.pc.toNat)) ∨
    (m.pc.toNat % 2 = 0 ∧ m.pc.toNat + 2 ≤ Config.memSize x ∧
      m.fetch = .ok (joinBE 16 [m.byteAt m.pc.toNat, m.byteAt (m.pc.toNat + 1)])) ∨
    (m.pc.toNat % 2 = 0 ∧ ¬ m.pc.toNat + 2 ≤ Config.memSize x ∧ m.fetch = .error (.accessFault m.pc.toNat)) := by
  by_cases h1 : m.pc.toNat % 2 = 0
  · by_cases h2 : m.pc.toNat + 2 ≤ Config.memSize x
    · exact .inr (.inl ⟨h1, h2, by simp [Mach.fetch, h1, h2, inMemory, Config.ilenBytes, Mach.memRead, Mach.bytesAt]⟩)
    · exact .inr (.inr ⟨h1, h2, by simp [Mach.fetch, h1, h2, inMemory, Config.ilenBytes, raise]⟩)
  · exact .inl ⟨h1, by simp [Mach.fetch, h1, raise]⟩

/-- Two bytes joined are their concatenation. -/
theorem joinBE_two (hi lo : Byte) : joinBE 16 [hi, lo] = hi ++ lo := by
  apply BitVec.eq_of_getLsbD_eq
  intro k hk
  rw [BitVec.getLsbD_append]
  by_cases h : k < 8
  · simp [joinBE, h, hk]
  · simp [joinBE, h, hk, BitVec.getLsbD_of_ge lo k (by omega)]

/-! ### Data accesses -/

/-- A byte load that completes read inside memory. -/
theorem loadByte_ok {m : Mach x} {ea : Word x} {b : Byte} (h : m.loadByte ea = .ok b) :
    ea.toNat + 1 ≤ Config.memSize x ∧ b = m.memRead ea.toNat 1 8 := by
  unfold Mach.loadByte at h
  split at h
  · rename_i hin; cases h; exact ⟨by simpa [inMemory] using hin, rfl⟩
  · cases h

/-- A byte store that completes wrote inside memory. -/
theorem storeByte_ok {m m' : Mach x} {ea : Word x} {b : Byte} (h : m.storeByte ea b = .ok m') :
    ea.toNat + 1 ≤ Config.memSize x ∧ m' = m.memWrite ea.toNat 1 b := by
  unfold Mach.storeByte at h
  split at h
  · rename_i hin; cases h; exact ⟨by simpa [inMemory] using hin, rfl⟩
  · cases h

/-- A word load that completes was aligned, and read memory or took one value from an input port. -/
theorem loadWord_ok {m m' : Mach x} {ea v : Word x} (h : m.loadWord ea = .ok (v, m')) :
    ea.toNat % x.wbytes = 0 ∧
      ((ea.toNat + x.wbytes ≤ Config.memSize x ∧ m' = m ∧ v = m.memRead ea.toNat x.wbytes x.bits) ∨
       (portAt x ea.toNat = some .inChar ∧ m' = m.takeChar ∧ v = m.nextChar.setWidth x.bits) ∨
       (portAt x ea.toNat = some .inInt ∧ m' = m.takeInt ∧ v = BitVec.ofInt x.bits m.nextInt)) := by
  unfold Mach.loadWord at h
  split at h
  · cases h
  · rename_i ha
    refine ⟨by simpa using ha, ?_⟩
    split at h
    · rename_i hin; cases h; exact .inl ⟨by simpa [inMemory] using hin, rfl, rfl⟩
    · split at h
      · rename_i p hp
        cases p <;> cases h
        · exact .inr (.inl ⟨hp, rfl, rfl⟩)
        · exact .inr (.inr ⟨hp, rfl, rfl⟩)
      · cases h

/-- A word store that completes was aligned, and wrote memory or appended one event. -/
theorem storeWord_ok {m m' : Mach x} {ea v : Word x} (h : m.storeWord ea v = .ok m') :
    ea.toNat % x.wbytes = 0 ∧
      ((ea.toNat + x.wbytes ≤ Config.memSize x ∧ m' = m.memWrite ea.toNat x.wbytes v) ∨
       (portAt x ea.toNat = some .outChar ∧ m' = m.emit (.outChar v)) ∨
       (portAt x ea.toNat = some .outInt ∧ m' = m.emit (.outInt v))) := by
  unfold Mach.storeWord at h
  split at h
  · cases h
  · rename_i ha
    refine ⟨by simpa using ha, ?_⟩
    split at h
    · rename_i hin; cases h; exact .inl ⟨by simpa [inMemory] using hin, rfl⟩
    · split at h
      · rename_i p hp
        cases p <;> cases h
        · exact .inr (.inl ⟨hp, rfl⟩)
        · exact .inr (.inr ⟨hp, rfl⟩)
      · cases h

/-! ### Branches -/

@[simp] theorem branchIf_true (m : Mach x) (t : Word x) : m.branchIf true t = m.setPc t := rfl
@[simp] theorem branchIf_false (m : Mach x) (t : Word x) : m.branchIf false t = m := rfl

/-- A branch changes pc to its target or changes nothing. -/
theorem branchIf_cases (m : Mach x) (c : Bool) (t : Word x) :
    (c = true ∧ m.branchIf c t = m.setPc t) ∨ (c = false ∧ m.branchIf c t = m) := by
  cases c <;> simp

/-! ### One instruction, everything it can do -/

/-- If exec answers a next state, the machine of that state is one of these: one register written, or one register
written after an input port gave a value, or bytes stored, or an event appended, or pc set, or nothing changed, or the
run halted. -/
theorem exec_next_cases {i : Instr} {m : Mach x} {t : State} (h : exec i ⟨x, m⟩ = .next t) :
    ∃ m', t = ⟨x, m'⟩ ∧
      ((∃ d v, i.dest = some d ∧ (m' = m.setReg d v ∨ m' = m.takeChar.setReg d v ∨ m' = m.takeInt.setReg d v)) ∨
       (i.isStore = true ∧ i.dest = none ∧ ∃ a n, ∃ v : Word x, a + n ≤ Config.memSize x ∧ m' = m.memWrite a n v) ∨
       (i.isStore = true ∧ i.dest = none ∧ ∃ a, ∃ b : Byte, a + 1 ≤ Config.memSize x ∧ m' = m.memWrite a 1 b) ∨
       (i.isStore = true ∧ i.dest = none ∧ ∃ e, m' = m.emit e) ∨
       (i.isBranch = true ∧ i.dest = none ∧ (m' = m ∨ ∃ a, m' = m.setPc a)) ∨
       (i = .hcf ∧ m' = m.setStatus .halted)) := by
  have fixed : ∀ {j : Instr} {go : Except Fault (Mach x)} {m' : Mach x}, withFixedField j go = .ok m' → go = .ok m' := by
    intro j go m' hj
    unfold withFixedField at hj
    split at hj
    · exact hj
    · cases hj
  have branch : ∀ (c : Bool) (a : Word x), m.branchIf c a = m ∨ ∃ b, m.branchIf c a = m.setPc b := by
    intro c a
    rcases branchIf_cases m c a with ⟨_, h⟩ | ⟨_, h⟩
    · exact .inr ⟨a, h⟩
    · exact .inl h
  cases i with
  | ldb d a b =>
    simp only [exec, execLdb] at h
    obtain ⟨m', hm, rfl⟩ := perform_next h
    have hm := fixed hm
    split at hm
    · cases hm; exact ⟨_, rfl, .inl ⟨_, _, rfl, .inl rfl⟩⟩
    · cases hm
  | stb d a b =>
    simp only [exec, execStb] at h
    obtain ⟨m', hm, rfl⟩ := perform_next h
    obtain ⟨hle, rfl⟩ := storeByte_ok (fixed hm)
    exact ⟨_, rfl, .inr (.inr (.inl ⟨rfl, rfl, _, _, hle, rfl⟩))⟩
  | ldw d a b =>
    simp only [exec, execLdw] at h
    obtain ⟨m', hm, rfl⟩ := perform_next h
    have hm := fixed hm
    split at hm
    · rename_i v m1 hl
      cases hm
      obtain ⟨-, ⟨-, e, -⟩ | ⟨-, e, -⟩ | ⟨-, e, -⟩⟩ := loadWord_ok hl
      · exact ⟨_, rfl, .inl ⟨d, v, rfl, .inl (e ▸ rfl)⟩⟩
      · exact ⟨_, rfl, .inl ⟨d, v, rfl, .inr (.inl (e ▸ rfl))⟩⟩
      · exact ⟨_, rfl, .inl ⟨d, v, rfl, .inr (.inr (e ▸ rfl))⟩⟩
    · cases hm
  | stw d a b =>
    simp only [exec, execStw] at h
    obtain ⟨m', hm, rfl⟩ := perform_next h
    obtain ⟨-, ⟨hle, rfl⟩ | ⟨-, rfl⟩ | ⟨-, rfl⟩⟩ := storeWord_ok (fixed hm)
    · exact ⟨_, rfl, .inr (.inl ⟨rfl, rfl, _, _, _, hle, rfl⟩)⟩
    · exact ⟨_, rfl, .inr (.inr (.inr (.inl ⟨rfl, rfl, _, rfl⟩)))⟩
    · exact ⟨_, rfl, .inr (.inr (.inr (.inl ⟨rfl, rfl, _, rfl⟩)))⟩
  | bezR d a b | bezRAlias d a b | bnzR d a b | bnzRAlias d a b =>
    simp only [exec, execBezR, execBezRAlias, execBnzR, execBnzRAlias] at h
    obtain ⟨m', hm, rfl⟩ := perform_next h
    obtain rfl := Except.ok.inj (fixed hm)
    exact ⟨_, rfl, .inr (.inr (.inr (.inr (.inl ⟨rfl, rfl, branch _ _⟩))))⟩
  | bezI d imm | bnzI d imm =>
    simp only [exec, execBezI, execBnzI] at h
    obtain ⟨m', hm, rfl⟩ := perform_next h
    obtain rfl := Except.ok.inj hm
    exact ⟨_, rfl, .inr (.inr (.inr (.inr (.inl ⟨rfl, rfl, branch _ _⟩))))⟩
  | hcf => cases h; exact ⟨_, rfl, .inr (.inr (.inr (.inr (.inr ⟨rfl, rfl⟩))))⟩
  | lsr d a b | asr d a b =>
    simp only [exec, execLsr, execAsr, State.shift] at h
    obtain ⟨m', hm, rfl⟩ := perform_next h
    obtain rfl := Except.ok.inj (fixed hm)
    exact ⟨_, rfl, .inl ⟨_, _, rfl, .inl rfl⟩⟩
  | _ => cases h; exact ⟨_, rfl, .inl ⟨_, _, rfl, .inl rfl⟩⟩

/-- What a step can do: a running machine fetches, decodes and runs one instruction, a halted one stays, a faulted one
faults. -/
theorem step_next {s t : State} (h : step s = .next t) :
    (s.mach.status = .halted ∧ t = s) ∨
      (s.mach.status = .running ∧ ∃ i, s.mach.fetchInstr = .ok i ∧ State.retire (exec i s.advance) = .next t) := by
  unfold step at h
  split at h
  · rename_i hs
    split at h
    · rename_i i hi; exact .inr ⟨hs, i, hi, h⟩
    · cases h
  · rename_i hs; cases h; exact .inl ⟨hs, rfl⟩
  · cases h

end Sys2Proof.Machine
end

