-- ==== Sys2Proof/Laws/PerInstr.lean ====
section
/-! SUPPORT. What holds of every instruction as text and as a word, one lemma per constructor. -/

namespace Sys2Proof.Laws

open Sys2Proof

/-- Bit 11 of an instruction's word tells its format: 0 is type R, 1 is type I (30_encoding.md R71). -/
def FormatBit.Statement (i : Instr) : Prop :=
  immField (encode i) = true ↔ i.format = .typeI

/-- The word of a well-formed instruction matches the instruction's own row of the opcode map (30_encoding.md R90). -/
def RowCovers.Statement (i : Instr) : Prop :=
  i.WellFormed → i.row ∈ opcodeRows ∧ encode i &&& i.row.mask = i.row.pattern

theorem FormatBit.andR (d a b : Reg) : Statement (.andR d a b) := by
  simp [Statement, encode, Instr.format]

theorem FormatBit.andI (d : Reg) (imm : BitVec 8) : Statement (.andI d imm) := by
  simp [Statement, encode, Instr.format]

theorem FormatBit.orR (d a b : Reg) : Statement (.orR d a b) := by
  simp [Statement, encode, Instr.format]

theorem FormatBit.orI (d : Reg) (imm : BitVec 8) : Statement (.orI d imm) := by
  simp [Statement, encode, Instr.format]

theorem FormatBit.xorR (d a b : Reg) : Statement (.xorR d a b) := by
  simp [Statement, encode, Instr.format]

theorem FormatBit.xorI (d : Reg) (imm : BitVec 8) : Statement (.xorI d imm) := by
  simp [Statement, encode, Instr.format]

theorem FormatBit.sltR (d a b : Reg) : Statement (.sltR d a b) := by
  simp [Statement, encode, Instr.format]

theorem FormatBit.sltI (d : Reg) (imm : BitVec 8) : Statement (.sltI d imm) := by
  simp [Statement, encode, Instr.format]

theorem FormatBit.sltuR (d a b : Reg) : Statement (.sltuR d a b) := by
  simp [Statement, encode, Instr.format]

theorem FormatBit.sltuI (d : Reg) (imm : BitVec 8) : Statement (.sltuI d imm) := by
  simp [Statement, encode, Instr.format]

theorem FormatBit.addR (d a b : Reg) : Statement (.addR d a b) := by
  simp [Statement, encode, Instr.format]

theorem FormatBit.addI (d : Reg) (imm : BitVec 8) : Statement (.addI d imm) := by
  simp [Statement, encode, Instr.format]

theorem FormatBit.subR (d a b : Reg) : Statement (.subR d a b) := by
  simp [Statement, encode, Instr.format]

theorem FormatBit.subI (d : Reg) (imm : BitVec 8) : Statement (.subI d imm) := by
  simp [Statement, encode, Instr.format]

theorem FormatBit.ldr (d : Reg) (imm : BitVec 8) : Statement (.ldr d imm) := by
  simp [Statement, encode, Instr.format]

theorem FormatBit.ldc (d : Reg) (imm : BitVec 8) : Statement (.ldc d imm) := by
  simp [Statement, encode, Instr.format]

theorem FormatBit.lsr (d a b : Reg) : Statement (.lsr d a b) := by
  simp [Statement, encode, Instr.format]

theorem FormatBit.asr (d a b : Reg) : Statement (.asr d a b) := by
  simp [Statement, encode, Instr.format]

theorem FormatBit.ldb (d a b : Reg) : Statement (.ldb d a b) := by
  simp [Statement, encode, Instr.format]

theorem FormatBit.stb (d a b : Reg) : Statement (.stb d a b) := by
  simp [Statement, encode, Instr.format]

theorem FormatBit.ldw (d a b : Reg) : Statement (.ldw d a b) := by
  simp [Statement, encode, Instr.format]

theorem FormatBit.stw (d a b : Reg) : Statement (.stw d a b) := by
  simp [Statement, encode, Instr.format]

theorem FormatBit.bezR (d a b : Reg) : Statement (.bezR d a b) := by
  simp [Statement, encode, Instr.format]

theorem FormatBit.bezRAlias (d a b : Reg) : Statement (.bezRAlias d a b) := by
  simp [Statement, encode, Instr.format]

theorem FormatBit.bezI (d : Reg) (imm : BitVec 8) : Statement (.bezI d imm) := by
  simp [Statement, encode, Instr.format]

theorem FormatBit.bnzR (d a b : Reg) : Statement (.bnzR d a b) := by
  simp [Statement, encode, Instr.format]

theorem FormatBit.bnzRAlias (d a b : Reg) : Statement (.bnzRAlias d a b) := by
  simp [Statement, encode, Instr.format]

theorem FormatBit.bnzI (d : Reg) (imm : BitVec 8) : Statement (.bnzI d imm) := by
  simp [Statement, encode, Instr.format]

theorem FormatBit.hcf : Statement .hcf := by
  unfold Statement; decide

/-- The bit positions of a word, one by one. -/
theorem bit_positions {k : Nat} (hk : k < 16) : k = 0 ∨ k = 1 ∨ k = 2 ∨ k = 3 ∨ k = 4 ∨ k = 5 ∨ k = 6 ∨ k = 7 ∨
    k = 8 ∨ k = 9 ∨ k = 10 ∨ k = 11 ∨ k = 12 ∨ k = 13 ∨ k = 14 ∨ k = 15 := by omega

section Masks

variable (opcode : BitVec 4) (op2 : BitVec 2) (d a b : Reg) (imm : BitVec 8)

/-- The mask of a row whose three register fields are free clears them. -/
theorem mask_encodeR : encodeR opcode op2 d a b &&& 0xF803#16 = encodeR opcode op2 .r0 .r0 .r0 := by
  apply BitVec.eq_of_getLsbD_eq
  intro k hk
  rw [BitVec.getLsbD_and, encodeR_getLsbD, encodeR_getLsbD]
  rcases bit_positions hk with rfl | rfl | rfl | rfl | rfl | rfl | rfl | rfl | rfl | rfl | rfl | rfl | rfl | rfl |
    rfl | rfl <;> simp [Reg.index]

/-- The mask of a row whose fixed field is RsB clears Rst and RsA. -/
theorem mask_encodeR_rsB : encodeR opcode op2 d a .r0 &&& 0xF81F#16 = encodeR opcode op2 .r0 .r0 .r0 := by
  apply BitVec.eq_of_getLsbD_eq
  intro k hk
  rw [BitVec.getLsbD_and, encodeR_getLsbD, encodeR_getLsbD]
  rcases bit_positions hk with rfl | rfl | rfl | rfl | rfl | rfl | rfl | rfl | rfl | rfl | rfl | rfl | rfl | rfl |
    rfl | rfl <;> simp [Reg.index]

/-- The mask of a row whose fixed field is RsA clears Rst and RsB. -/
theorem mask_encodeR_rsA : encodeR opcode op2 d .r0 b &&& 0xF8E3#16 = encodeR opcode op2 .r0 .r0 .r0 := by
  apply BitVec.eq_of_getLsbD_eq
  intro k hk
  rw [BitVec.getLsbD_and, encodeR_getLsbD, encodeR_getLsbD]
  rcases bit_positions hk with rfl | rfl | rfl | rfl | rfl | rfl | rfl | rfl | rfl | rfl | rfl | rfl | rfl | rfl |
    rfl | rfl <;> simp [Reg.index]

/-- The mask of a row whose fixed field is Rst clears RsA and RsB. -/
theorem mask_encodeR_rst : encodeR opcode op2 .r0 a b &&& 0xFF03#16 = encodeR opcode op2 .r0 .r0 .r0 := by
  apply BitVec.eq_of_getLsbD_eq
  intro k hk
  rw [BitVec.getLsbD_and, encodeR_getLsbD, encodeR_getLsbD]
  rcases bit_positions hk with rfl | rfl | rfl | rfl | rfl | rfl | rfl | rfl | rfl | rfl | rfl | rfl | rfl | rfl |
    rfl | rfl <;> simp [Reg.index]

/-- The mask of a type I row clears Rst and the immediate. -/
theorem mask_encodeI : encodeI opcode d imm &&& 0xF800#16 = encodeI opcode .r0 0#8 := by
  apply BitVec.eq_of_getLsbD_eq
  intro k hk
  rw [BitVec.getLsbD_and, encodeI_getLsbD, encodeI_getLsbD]
  rcases bit_positions hk with rfl | rfl | rfl | rfl | rfl | rfl | rfl | rfl | rfl | rfl | rfl | rfl | rfl | rfl |
    rfl | rfl <;> simp [Reg.index]

end Masks

theorem RowCovers.andR (d a b : Reg) : Statement (.andR d a b) := by
  intro _
  exact ⟨by simp [Instr.row, opcodeRows, computationRows, otherRows], (mask_encodeR _ _ _ _ _).trans rfl⟩

theorem RowCovers.andI (d : Reg) (imm : BitVec 8) : Statement (.andI d imm) := by
  intro _
  exact ⟨by simp [Instr.row, opcodeRows, computationRows, otherRows], (mask_encodeI _ _ _).trans rfl⟩

theorem RowCovers.orR (d a b : Reg) : Statement (.orR d a b) := by
  intro _
  exact ⟨by simp [Instr.row, opcodeRows, computationRows, otherRows], (mask_encodeR _ _ _ _ _).trans rfl⟩

theorem RowCovers.orI (d : Reg) (imm : BitVec 8) : Statement (.orI d imm) := by
  intro _
  exact ⟨by simp [Instr.row, opcodeRows, computationRows, otherRows], (mask_encodeI _ _ _).trans rfl⟩

theorem RowCovers.xorR (d a b : Reg) : Statement (.xorR d a b) := by
  intro _
  exact ⟨by simp [Instr.row, opcodeRows, computationRows, otherRows], (mask_encodeR _ _ _ _ _).trans rfl⟩

theorem RowCovers.xorI (d : Reg) (imm : BitVec 8) : Statement (.xorI d imm) := by
  intro _
  exact ⟨by simp [Instr.row, opcodeRows, computationRows, otherRows], (mask_encodeI _ _ _).trans rfl⟩

theorem RowCovers.sltR (d a b : Reg) : Statement (.sltR d a b) := by
  intro _
  exact ⟨by simp [Instr.row, opcodeRows, computationRows, otherRows], (mask_encodeR _ _ _ _ _).trans rfl⟩

theorem RowCovers.sltI (d : Reg) (imm : BitVec 8) : Statement (.sltI d imm) := by
  intro _
  exact ⟨by simp [Instr.row, opcodeRows, computationRows, otherRows], (mask_encodeI _ _ _).trans rfl⟩

theorem RowCovers.sltuR (d a b : Reg) : Statement (.sltuR d a b) := by
  intro _
  exact ⟨by simp [Instr.row, opcodeRows, computationRows, otherRows], (mask_encodeR _ _ _ _ _).trans rfl⟩

theorem RowCovers.sltuI (d : Reg) (imm : BitVec 8) : Statement (.sltuI d imm) := by
  intro _
  exact ⟨by simp [Instr.row, opcodeRows, computationRows, otherRows], (mask_encodeI _ _ _).trans rfl⟩

theorem RowCovers.addR (d a b : Reg) : Statement (.addR d a b) := by
  intro _
  exact ⟨by simp [Instr.row, opcodeRows, computationRows, otherRows], (mask_encodeR _ _ _ _ _).trans rfl⟩

theorem RowCovers.addI (d : Reg) (imm : BitVec 8) : Statement (.addI d imm) := by
  intro _
  exact ⟨by simp [Instr.row, opcodeRows, computationRows, otherRows], (mask_encodeI _ _ _).trans rfl⟩

theorem RowCovers.subR (d a b : Reg) : Statement (.subR d a b) := by
  intro _
  exact ⟨by simp [Instr.row, opcodeRows, computationRows, otherRows], (mask_encodeR _ _ _ _ _).trans rfl⟩

theorem RowCovers.subI (d : Reg) (imm : BitVec 8) : Statement (.subI d imm) := by
  intro _
  exact ⟨by simp [Instr.row, opcodeRows, computationRows, otherRows], (mask_encodeI _ _ _).trans rfl⟩

theorem RowCovers.ldr (d : Reg) (imm : BitVec 8) : Statement (.ldr d imm) := by
  intro _
  exact ⟨by simp [Instr.row, opcodeRows, computationRows, otherRows], (mask_encodeI _ _ _).trans rfl⟩

theorem RowCovers.ldc (d : Reg) (imm : BitVec 8) : Statement (.ldc d imm) := by
  intro _
  exact ⟨by simp [Instr.row, opcodeRows, computationRows, otherRows], (mask_encodeI _ _ _).trans rfl⟩

theorem RowCovers.lsr (d a b : Reg) : Statement (.lsr d a b) := by
  intro h
  obtain rfl : b = .r0 := by simpa [Instr.WellFormed, Instr.fixedField] using h
  exact ⟨by simp [Instr.row, opcodeRows, computationRows, otherRows], (mask_encodeR_rsB _ _ _ _).trans rfl⟩

theorem RowCovers.asr (d a b : Reg) : Statement (.asr d a b) := by
  intro h
  obtain rfl : b = .r0 := by simpa [Instr.WellFormed, Instr.fixedField] using h
  exact ⟨by simp [Instr.row, opcodeRows, computationRows, otherRows], (mask_encodeR_rsB _ _ _ _).trans rfl⟩

theorem RowCovers.ldb (d a b : Reg) : Statement (.ldb d a b) := by
  intro h
  obtain rfl : a = .r0 := by simpa [Instr.WellFormed, Instr.fixedField] using h
  exact ⟨by simp [Instr.row, opcodeRows, computationRows, otherRows], (mask_encodeR_rsA _ _ _ _).trans rfl⟩

theorem RowCovers.stb (d a b : Reg) : Statement (.stb d a b) := by
  intro h
  obtain rfl : d = .r0 := by simpa [Instr.WellFormed, Instr.fixedField] using h
  exact ⟨by simp [Instr.row, opcodeRows, computationRows, otherRows], (mask_encodeR_rst _ _ _ _).trans rfl⟩

theorem RowCovers.ldw (d a b : Reg) : Statement (.ldw d a b) := by
  intro h
  obtain rfl : a = .r0 := by simpa [Instr.WellFormed, Instr.fixedField] using h
  exact ⟨by simp [Instr.row, opcodeRows, computationRows, otherRows], (mask_encodeR_rsA _ _ _ _).trans rfl⟩

theorem RowCovers.stw (d a b : Reg) : Statement (.stw d a b) := by
  intro h
  obtain rfl : d = .r0 := by simpa [Instr.WellFormed, Instr.fixedField] using h
  exact ⟨by simp [Instr.row, opcodeRows, computationRows, otherRows], (mask_encodeR_rst _ _ _ _).trans rfl⟩

theorem RowCovers.bezR (d a b : Reg) : Statement (.bezR d a b) := by
  intro h
  obtain rfl : d = .r0 := by simpa [Instr.WellFormed, Instr.fixedField] using h
  exact ⟨by simp [Instr.row, opcodeRows, computationRows, otherRows], (mask_encodeR_rst _ _ _ _).trans rfl⟩

theorem RowCovers.bezRAlias (d a b : Reg) : Statement (.bezRAlias d a b) := by
  intro h
  obtain rfl : d = .r0 := by simpa [Instr.WellFormed, Instr.fixedField] using h
  exact ⟨by simp [Instr.row, opcodeRows, computationRows, otherRows], (mask_encodeR_rst _ _ _ _).trans rfl⟩

theorem RowCovers.bezI (d : Reg) (imm : BitVec 8) : Statement (.bezI d imm) := by
  intro _
  exact ⟨by simp [Instr.row, opcodeRows, computationRows, otherRows], (mask_encodeI _ _ _).trans rfl⟩

theorem RowCovers.bnzR (d a b : Reg) : Statement (.bnzR d a b) := by
  intro h
  obtain rfl : d = .r0 := by simpa [Instr.WellFormed, Instr.fixedField] using h
  exact ⟨by simp [Instr.row, opcodeRows, computationRows, otherRows], (mask_encodeR_rst _ _ _ _).trans rfl⟩

theorem RowCovers.bnzRAlias (d a b : Reg) : Statement (.bnzRAlias d a b) := by
  intro h
  obtain rfl : d = .r0 := by simpa [Instr.WellFormed, Instr.fixedField] using h
  exact ⟨by simp [Instr.row, opcodeRows, computationRows, otherRows], (mask_encodeR_rst _ _ _ _).trans rfl⟩

theorem RowCovers.bnzI (d : Reg) (imm : BitVec 8) : Statement (.bnzI d imm) := by
  intro _
  exact ⟨by simp [Instr.row, opcodeRows, computationRows, otherRows], (mask_encodeI _ _ _).trans rfl⟩

theorem RowCovers.hcf : Statement .hcf := by
  intro _
  exact ⟨by decide, by decide⟩

end Sys2Proof.Laws
end

