-- ==== Sys2Proof/Tests/Slice0.lean ====
section
/-! SUPPORT. Tests of the model by itself: ill-formed terms refused, written-out words decoded, one step of each
instruction, and for each statement with hypotheses states that meet them. The words and values are those of
95_test_vectors.md, which was computed from the spec's rules and not from this model. -/

namespace Sys2Proof.Tests.Slice0

open Sys2Proof Sys2Proof.Machine

-- The tests are checked one after another, so that they do not need one thread (and its stack) each.
set_option Elab.async false

/-! ## WellFormed: every fixed field refused -/

theorem test_illFormed_lsr : ¬ (Instr.lsr .r1 .r2 .r3).WellFormed := by decide
theorem test_illFormed_asr : ¬ (Instr.asr .r1 .r2 .r7).WellFormed := by decide
theorem test_illFormed_ldb : ¬ (Instr.ldb .r1 .r2 .r3).WellFormed := by decide
theorem test_illFormed_ldw : ¬ (Instr.ldw .r1 .r2 .r3).WellFormed := by decide
theorem test_illFormed_stb : ¬ (Instr.stb .r1 .r2 .r3).WellFormed := by decide
theorem test_illFormed_stw : ¬ (Instr.stw .r7 .r2 .r3).WellFormed := by decide
theorem test_illFormed_bezR : ¬ (Instr.bezR .r1 .r2 .r3).WellFormed := by decide
theorem test_illFormed_bezRAlias : ¬ (Instr.bezRAlias .r1 .r2 .r3).WellFormed := by decide
theorem test_illFormed_bnzR : ¬ (Instr.bnzR .r4 .r2 .r3).WellFormed := by decide
theorem test_illFormed_bnzRAlias : ¬ (Instr.bnzRAlias .r1 .r2 .r3).WellFormed := by decide

theorem test_wellFormed_all_r0 : (Instr.ldw .r7 .r0 .r7).WellFormed ∧ (Instr.addR .r1 .r2 .r3).WellFormed := by decide

/-! ## Decode: one written-out word for every constructor (95_test_vectors.md sections 1.1, 1.4, 2) -/

/-- The instruction a word decodes to. -/
def decoded (w : InstrWord) : Option Instr := (decodeWord w).toOption

theorem test_decode_andR : decoded 0x0270 = some (.andR .r2 .r3 .r4) := by decide
theorem test_decode_andI : decoded 0x0d01 = some (.andI .r5 1) := by decide
theorem test_decode_orR : decoded 0x114c = some (.orR .r1 .r2 .r3) := by decide
theorem test_decode_orI : decoded 0x1a01 = some (.orI .r2 1) := by decide
theorem test_decode_xorR : decoded 0x214c = some (.xorR .r1 .r2 .r3) := by decide
theorem test_decode_xorI : decoded 0x2dff = some (.xorI .r5 0xff) := by decide
theorem test_decode_sltR : decoded 0x3328 = some (.sltR .r3 .r1 .r2) := by decide
theorem test_decode_sltI : decoded 0x3c0a = some (.sltI .r4 10) := by decide
theorem test_decode_sltuR : decoded 0x4544 = some (.sltuR .r5 .r2 .r1) := by decide
theorem test_decode_sltuI : decoded 0x4901 = some (.sltuI .r1 1) := by decide
theorem test_decode_addR : decoded 0x5328 = some (.addR .r3 .r1 .r2) := by decide
theorem test_decode_addI : decoded 0x5d0a = some (.addI .r5 10) := by decide
theorem test_decode_subR : decoded 0x6104 = some (.subR .r1 .r0 .r1) := by decide
theorem test_decode_subI : decoded 0x6901 = some (.subI .r1 1) := by decide
theorem test_decode_ldr : decoded 0x8b05 = some (.ldr .r3 5) := by decide
theorem test_decode_ldc : decoded 0x9b0a = some (.ldc .r3 10) := by decide
theorem test_decode_lsr : decoded 0x0561 = some (.lsr .r5 .r3 .r0) := by decide
theorem test_decode_asr : decoded 0x1141 = some (.asr .r1 .r2 .r0) := by decide
theorem test_decode_ldb : decoded 0x030a = some (.ldb .r3 .r0 .r2) := by decide
theorem test_decode_stb : decoded 0x102a = some (.stb .r0 .r1 .r2) := by decide
theorem test_decode_ldw : decoded 0x4502 = some (.ldw .r5 .r0 .r0) := by decide
theorem test_decode_stw : decoded 0x5036 = some (.stw .r0 .r1 .r5) := by decide
theorem test_decode_bezR : decoded 0xa04f = some (.bezR .r0 .r2 .r3) := by decide
theorem test_decode_bezRAlias : decoded 0xa04c = some (.bezRAlias .r0 .r2 .r3) := by decide
theorem test_decode_bezI : decoded 0xac1c = some (.bezI .r4 28) := by decide
theorem test_decode_bnzR : decoded 0xb023 = some (.bnzR .r0 .r1 .r0) := by decide
theorem test_decode_bnzRAlias : decoded 0xb020 = some (.bnzRAlias .r0 .r1 .r0) := by decide
theorem test_decode_bnzI : decoded 0xbafa = some (.bnzI .r2 0xfa) := by decide
theorem test_decode_hcf : decoded 0x0003 = some .hcf := by decide

/-! Words that are no instruction (95_test_vectors.md section 2.13). -/

theorem test_reserved_0007 : decoded 0x0007 = none := by decide
theorem test_reserved_0103 : decoded 0x0103 = none := by decide
theorem test_reserved_7800 : decoded 0x7800 = none := by decide
theorem test_reserved_8000 : decoded 0x8000 = none := by decide
theorem test_reserved_9124 : decoded 0x9124 = none := by decide
theorem test_reserved_c800 : decoded 0xc800 = none := by decide
theorem test_reserved_ffff : decoded 0xffff = none := by decide
theorem test_reserved_2001 : decoded 0x2001 = none := by decide
theorem test_reserved_0125 : decoded 0x0125 = none := by decide
theorem test_reserved_2002 : decoded 0x2002 = none := by decide
theorem test_reserved_4122 : decoded 0x4122 = none := by decide
theorem test_reserved_512a : decoded 0x512a = none := by decide
theorem test_reserved_a001 : decoded 0xa001 = none := by decide
theorem test_reserved_b002 : decoded 0xb002 = none := by decide
theorem test_reserved_b123 : decoded 0xb123 = none := by decide
theorem test_reserved_5003 : decoded 0x5003 = none := by decide

theorem test_table_word : decodeTableWord 16 0x9b0a = some (.ldc .r3 10) := by decide
theorem test_too_few_bytes : (decode [0x9b]).toOption = none := by decide

/-! ## One step of each instruction -/

/-- A machine of the variant x with some registers set, some bytes in memory and a word where it fetches. -/
def mach (x : Xlen) (pc word : Nat) (regs : List (Reg × Nat)) (bytes : List (Nat × Byte) := []) : Mach x :=
  let m := (bytes.foldl (fun mem c => mem.write c.1 c.2) [] : Memory)
  let m := { Mach.reset x with pc := BitVec.ofNat x.bits pc, mem := m }
  regs.foldl (fun m c => m.setReg c.1 (BitVec.ofNat x.bits c.2)) (m.placeWord (BitVec.ofNat 16 word))

/-- A word of the 16-bit memory notation of the vectors. -/
def bytes16 (a v : Nat) : List (Nat × Byte) := [(a, BitVec.ofNat 8 (v / 256)), (a + 1, BitVec.ofNat 8 v)]

/-- The machine after one step, seen through a function; nothing if the step is no next state. -/
def after {α : Type} {x : Xlen} (m : Mach x) (f : (y : Xlen) → Mach y → α) : Option α :=
  match step ⟨x, m⟩ with
  | .next t => some (f t.xlen t.mach)
  | .fault _ => none
  | .refused _ => none

/-- A register and pc after one step. -/
def regPc (r : Reg) (y : Xlen) (m : Mach y) : Nat × Nat := ((m.reg r).toNat, m.pc.toNat)

/-- Some bytes of memory after one step. -/
def bytesFrom (a n : Nat) (y : Xlen) (m : Mach y) : List Nat := (m.bytesAt a n).map BitVec.toNat

/-- The fault one step raises. -/
def faultOf {x : Xlen} (m : Mach x) : Option Fault :=
  match step ⟨x, m⟩ with
  | .next _ => none
  | .fault f => some f
  | .refused _ => none

theorem test_and_register :
    after (mach .x16 0x0 0x0270 [(.r3, 0x0f0f), (.r4, 0x00ff)]) (regPc .r2) = some (0xf, 0x2) := by decide +kernel

theorem test_and_immediate_zero_extends :
    after (mach .x16 0x0 0x09ff [(.r1, 0xabcd)]) (regPc .r1) = some (0xcd, 0x2) := by decide +kernel

theorem test_or_register :
    after (mach .x16 0x0 0x114c [(.r2, 0x00f0), (.r3, 0x0f00)]) (regPc .r1) = some (0xff0, 0x2) := by decide +kernel

theorem test_or_immediate_zero_extends :
    after (mach .x16 0x0 0x1a80 [(.r2, 0)]) (regPc .r2) = some (0x80, 0x2) := by decide +kernel

theorem test_xor_register :
    after (mach .x16 0x0 0x214c [(.r2, 0xff00), (.r3, 0x0ff0)]) (regPc .r1) = some (0xf0f0, 0x2) := by decide +kernel

theorem test_xor_immediate_sign_extends_32 :
    after (mach .x32 0x0 0x2980 [(.r1, 0)]) (regPc .r1) = some (0xffffff80, 0x2) := by decide +kernel

theorem test_slt_register_overflow :
    after (mach .x16 0x0 0x3328 [(.r1, 0x8000), (.r2, 0x7fff), (.r3, 0xdead)]) (regPc .r3) = some (0x1, 0x2) := by decide +kernel

theorem test_slt_immediate_negative :
    after (mach .x16 0x0 0x3cff [(.r4, 0xfffe)]) (regPc .r4) = some (0x1, 0x2) := by decide +kernel

theorem test_slt_immediate_equal :
    after (mach .x16 0x0 0x3c7f [(.r4, 0x7fff)]) (regPc .r4) = some (0x0, 0x2) := by decide +kernel

theorem test_sltu_register :
    after (mach .x16 0x0 0x4328 [(.r1, 0x8000), (.r2, 0x7fff), (.r3, 0xdead)]) (regPc .r3) = some (0x0, 0x2) := by decide +kernel

theorem test_sltu_immediate_sign_extends_32 :
    after (mach .x32 0x0 0x49ff [(.r1, 0x0000ffff)]) (regPc .r1) = some (0x1, 0x2) := by decide +kernel

theorem test_add_register_wraps :
    after (mach .x16 0x0 0x514c [(.r2, 0xffff), (.r3, 1)]) (regPc .r1) = some (0x0, 0x2) := by decide +kernel

theorem test_add_immediate_negative :
    after (mach .x16 0x0 0x5ffe [(.r7, 0xdffe)]) (regPc .r7) = some (0xdffc, 0x2) := by decide +kernel

theorem test_sub_register_order :
    after (mach .x16 0x0 0x6328 [(.r1, 3), (.r2, 5)]) (regPc .r3) = some (0xfffe, 0x2) := by decide +kernel

theorem test_sub_immediate_most_negative :
    after (mach .x16 0x0 0x6980 [(.r1, 0)]) (regPc .r1) = some (0x80, 0x2) := by decide +kernel

theorem test_ldr_sign_extends_32 :
    after (mach .x32 0x0 0x8986 [(.r1, 0)]) (regPc .r1) = some (0xffffff86, 0x2) := by decide +kernel

theorem test_ldc_drops_top_byte :
    after (mach .x16 0x0 0x999f [(.r1, 0xff86)]) (regPc .r1) = some (0x869f, 0x2) := by decide +kernel

theorem test_ldc_32 :
    after (mach .x32 0x0 0x9912 [(.r1, 0x89abcdef)]) (regPc .r1) = some (0xabcdef12, 0x2) := by decide +kernel

theorem test_lsr_same_register :
    after (mach .x16 0x0 0x0121 [(.r1, 0x8001)]) (regPc .r1) = some (0x4000, 0x2) := by decide +kernel

theorem test_asr_rounds_down :
    after (mach .x16 0x0 0x1141 [(.r1, 0xdead), (.r2, 0xfffb)]) (regPc .r1) = some (0xfffd, 0x2) := by decide +kernel

theorem test_asr_32 :
    after (mach .x32 0x0 0x1121 [(.r1, 0x80000001)]) (regPc .r1) = some (0xc0000000, 0x2) := by decide +kernel

theorem test_ldb_odd_address :
    after (mach .x16 0x0 0x030a [(.r2, 0x41), (.r3, 0xdead)] (bytes16 0x40 0x7f80)) (regPc .r3) = some (0xff80, 0x2) := by decide +kernel

theorem test_ldb_same_register :
    after (mach .x16 0x0 0x0106 [(.r1, 0x40)] (bytes16 0x40 0xff00)) (regPc .r1) = some (0xffff, 0x2) := by decide +kernel

theorem test_ldw_last_word :
    after (mach .x16 0x0 0x410a [(.r1, 0xdead), (.r2, 0xdffe)] (bytes16 0xdffe 0xcafe)) (regPc .r1) = some (0xcafe, 0x2) := by decide +kernel

theorem test_ldw_32_big_endian :
    after (mach .x32 0x0 0x410a [(.r2, 0x40)] (bytes16 0x40 0x1234 ++ bytes16 0x42 0x5678)) (regPc .r1) = some (0x12345678, 0x2) := by decide +kernel

theorem test_bez_relative_taken :
    after (mach .x16 0x100 0xac1c [(.r4, 0)]) (regPc .r4) = some (0x0, 0x11e) := by decide +kernel

theorem test_bez_relative_odd_not_taken :
    after (mach .x16 0x100 0xa97f [(.r1, 5)]) (regPc .r1) = some (0x5, 0x102) := by decide +kernel

theorem test_bnz_relative_back :
    after (mach .x16 0xa 0xbafa [(.r2, 2)]) (regPc .r2) = some (0x2, 0x6) := by decide +kernel

theorem test_bnz_relative_wraps :
    after (mach .x16 0x0 0xb9fc [(.r1, 1)]) (regPc .r1) = some (0x1, 0xfffe) := by decide +kernel

theorem test_bez_register_taken :
    after (mach .x16 0x10 0xa04f [(.r2, 0), (.r3, 0x200)]) (regPc .r2) = some (0x0, 0x200) := by decide +kernel

theorem test_bez_register_not_taken :
    after (mach .x16 0x10 0xa04f [(.r2, 1), (.r3, 0x200)]) (regPc .r2) = some (0x1, 0x12) := by decide +kernel

theorem test_bez_alias_taken :
    after (mach .x16 0x10 0xa04c [(.r2, 0), (.r3, 0x200)]) (regPc .r0) = some (0x0, 0x200) := by decide +kernel

theorem test_bnz_register_odd_target :
    after (mach .x16 0x2 0xb0e7 [(.r1, 5), (.r7, 0xdffe)]) (regPc .r1) = some (0x5, 0x5) := by decide +kernel

theorem test_bnz_register_falls_through :
    after (mach .x16 0x5a 0xb0fb [(.r6, 0x16), (.r7, 0)]) (regPc .r6) = some (0x16, 0x5c) := by decide +kernel

theorem test_bnz_alias_taken :
    after (mach .x16 0x1e 0xb020 [(.r0, 8), (.r1, 8)]) (regPc .r0) = some (0x8, 0x8) := by decide +kernel

theorem test_stb_keeps_neighbour :
    after (mach .x16 0 0x102a [(.r1, 0x12ab), (.r2, 0x41)] (bytes16 0x40 0x5566)) (bytesFrom 0x40 2) = some [0x55, 0xab] := by decide +kernel

theorem test_stw_big_endian :
    after (mach .x16 0 0x503e [(.r1, 0xbeef), (.r7, 0xdffc)]) (bytesFrom 0xdffc 2) = some [0xbe, 0xef] := by decide +kernel

theorem test_stw_32_big_endian :
    after (mach .x32 0 0x502a [(.r1, 0x89abcdef), (.r2, 0x40)]) (bytesFrom 0x40 4) = some [0x89, 0xab, 0xcd, 0xef] := by decide +kernel

theorem test_stw_out_char : after (mach .x16 0 0x502a [(.r1, 0xff41), (.r2, 0xf000)]) (fun _ m => m.renderedOutput) =
    some ['A'] := by decide +kernel

theorem test_stw_out_int : after (mach .x16 0 0x502a [(.r1, 0xfff7), (.r2, 0xf002)]) (fun _ m => m.renderedOutput) =
    some ['-', '9'] := by decide +kernel

theorem test_ldw_in_int : after { mach .x16 0 0x410a [(.r2, 0xf006)] with intInput := [-21, 3] }
    (fun y m => (regPc .r1 y m, m.intInput)) = some ((0xffeb, 2), [3]) := by decide +kernel

theorem test_hcf : after (mach .x16 0xdffe 3 []) (fun _ m => (m.status, m.pc.toNat, m.cycles)) =
    some (.halted, 0xe000, 0) := by decide +kernel

/-! ## Faults (95_test_vectors.md sections 2.11, 2.13, 2.14) -/

theorem test_fault_ldb_port : faultOf (mach .x16 0x0 0x010a [(.r2, 0xf004)]) = some (.accessFault 0xf004) := by decide +kernel

theorem test_fault_ldb_above_memory : faultOf (mach .x16 0x0 0x010a [(.r2, 0xe000)]) = some (.accessFault 0xe000) := by decide +kernel

theorem test_fault_stb_port : faultOf (mach .x16 0x0 0x102a [(.r2, 0xf000)]) = some (.accessFault 0xf000) := by decide +kernel

theorem test_fault_ldw_misaligned_first : faultOf (mach .x16 0x0 0x410a [(.r2, 0xe001)]) = some (.misalignedData 0xe001) := by decide +kernel

theorem test_fault_ldw_output_port : faultOf (mach .x16 0x0 0x410a [(.r2, 0xf000)]) = some (.accessFault 0xf000) := by decide +kernel

theorem test_fault_ldw_32_misaligned : faultOf (mach .x32 0x0 0x410a [(.r2, 0x42)]) = some (.misalignedData 0x42) := by decide +kernel

theorem test_fault_stw_input_port : faultOf (mach .x16 0x0 0x502a [(.r2, 0xf006)]) = some (.accessFault 0xf006) := by decide +kernel

theorem test_fault_reserved_word : faultOf (mach .x16 0x0 0xffff [(.r1, 0)]) = some (.reservedInstruction 0xffff) := by decide +kernel

theorem test_fault_fixed_field : faultOf (mach .x16 0x0 0x512a [(.r2, 0xe001)]) = some (.reservedInstruction 0x512a) := by decide +kernel

theorem test_fault_fetch_misaligned_first : faultOf (mach .x16 0xe001 0 [(.r1, 0)]) = some (.misalignedFetch 0xe001) := by decide +kernel

theorem test_fault_fetch_above_memory : faultOf (mach .x16 0xe000 0 [(.r1, 0)]) = some (.accessFault 0xe000) := by decide +kernel

/-! ## The interface, the assembler and the pseudo-operations -/

theorem test_withFetchWord_runs : (match step (State.reset.withFetchWord 16 0x8b05) with
    | .next t => some (regPc .r3 t.xlen t.mach)
    | _ => none) = some (5, 2) := by decide +kernel

theorem test_reset_memory_wf : State.reset.mach.mem.wf = true := by decide

theorem test_push_words : (Pseudo.expand id .op2_11 0 (.push .r1 : Pseudo (BitVec 16))).map encode = [0x5ffe, 0x503e] := by
  decide

theorem test_call_words : (Pseudo.expand id .op2_11 0x10 (.jal 0x1234 : Pseudo (BitVec 16))).map encode =
    [0x9812, 0x9834, 0x9e00, 0x9e1a, 0xb0e3] := by decide

/-! ## States that meet the hypotheses of the statements -/


/-! ### Encoding -/

/-- DecodeEncodeAgree. -/
theorem witness_wellFormed : (Instr.stw .r0 .r7 .r7).WellFormed := by decide

/-- AcceptedWordsReencode and BitElevenTellsFormat: an accepted word of each format. -/
theorem witness_accepted : decodeWord 0xb0fc = .ok (.bnzRAlias .r0 .r7 .r7) ∧ decodeWord 0xbfff = .ok (.bnzI .r7 0xff) :=
  ⟨rfl, rfl⟩

/-- DecodesExactlyTableRows: the first and the last word of a row. -/
theorem witness_row : (⟨"BNZ", .typeI, 0xB800, 0xF800⟩ : OpcodeRow) ∈ opcodeRows ∧
    (0xB800 : InstrWord) &&& 0xF800 = 0xB800 ∧ (0xBFFF : InstrWord) &&& 0xF800 = 0xB800 := by decide

/-! ### The shift class: a register other than r0 -/

theorem witness_shift_fixed : Reg.r7 ≠ Reg.r0 := by decide

/-! ### Loads and stores: the first and the last address of each clause -/

/-- LdbLoadsSignedByte and StbStoresLowByte. -/
theorem witness_byte_in_memory :
    ((mach .x16 0 0 [(.r1, 0)]).effectiveAddr .r1).toNat < Config.memSize .x16 ∧
    ((mach .x16 0 0 [(.r1, 0xdfff)]).effectiveAddr .r1).toNat < Config.memSize .x16 ∧
    ((mach .x32 0 0 [(.r1, 0xfffff)]).effectiveAddr .r1).toNat < Config.memSize .x32 := by decide

/-- LdwLoadsBigEndianWord and StwStoresBigEndianWord. -/
theorem witness_word_in_memory :
    (((mach .x16 0 0 []).effectiveAddr .sp).toNat = 0xdffe ∧
      ((mach .x16 0 0 []).effectiveAddr .sp).toNat % Xlen.x16.wbytes = 0 ∧
      ((mach .x16 0 0 []).effectiveAddr .sp).toNat < Config.memSize .x16) ∧
    (((mach .x32 0 0 []).effectiveAddr .sp).toNat = 0xffffc ∧
      ((mach .x32 0 0 []).effectiveAddr .sp).toNat % Xlen.x32.wbytes = 0 ∧
      ((mach .x32 0 0 []).effectiveAddr .sp).toNat < Config.memSize .x32) := by decide

/-- LdwTakesInput: each port, with a value waiting. -/
theorem witness_input_ports :
    (((mach .x16 0 0 [(.r1, 0xf004)]).effectiveAddr .r1).toNat = Config.portAddr .x16 .inChar ∧
      { mach .x16 0 0 [(.r1, 0xf004)] with charInput := [65] }.charInput = 65 :: []) ∧
    (((mach .x32 0 0 [(.r1, 0xf000000c)]).effectiveAddr .r1).toNat = Config.portAddr .x32 .inInt ∧
      { mach .x32 0 0 [(.r1, 0xf000000c)] with intInput := [-1] }.intInput = -1 :: []) := by decide

/-- StwEmitsOutput: each port. -/
theorem witness_output_ports :
    ((mach .x16 0 0 [(.r1, 0xf000)]).effectiveAddr .r1).toNat = Config.portAddr .x16 .outChar ∧
    ((mach .x32 0 0 [(.r1, 0xf0000004)]).effectiveAddr .r1).toNat = Config.portAddr .x32 .outInt := by decide

/-! ### Branches: both encodings of each register form -/

/-- BezRegisterBranchesIfZero and BnzRegisterBranchesIfNotZero. -/
theorem witness_branch_forms (a b : Reg) :
    (Instr.bezRAlias .r0 a b = .bezR .r0 a b ∨ Instr.bezRAlias .r0 a b = .bezRAlias .r0 a b) ∧
    (Instr.bnzR .r0 a b = .bnzR .r0 a b ∨ Instr.bnzR .r0 a b = .bnzRAlias .r0 a b) := ⟨.inr rfl, .inl rfl⟩

/-! ### Memory -/

/-- A word store and a byte store, as exec answers them. -/
def stored (m : Mach .x16) (a b : Reg) : Mach .x16 := m.memWrite (m.reg b).toNat 2 (m.reg a)

@[inherit_doc stored]
def storedByte (m : Mach .x16) (a b : Reg) : Mach .x16 := m.memWrite (m.reg b).toNat 1 ((m.reg a).extractLsb' 0 8)

/-- StoredWordLoadsBack, at the last word of memory. -/
theorem witness_store_load :
    exec (.stw .r0 .r1 .sp) ⟨.x16, mach .x16 0 0 [(.r1, 0xbeef), (.r2, 0xdffe)]⟩ =
      .next ⟨.x16, stored (mach .x16 0 0 [(.r1, 0xbeef), (.r2, 0xdffe)]) .r1 .sp⟩ ∧
    ((mach .x16 0 0 [(.r1, 0xbeef), (.r2, 0xdffe)]).reg .sp).toNat < Config.memSize .x16 ∧
    (mach .x16 0 0 [(.r1, 0xbeef), (.r2, 0xdffe)]).reg .r2 = (mach .x16 0 0 [(.r1, 0xbeef), (.r2, 0xdffe)]).reg .sp :=
  ⟨rfl, by decide, by decide⟩

/-- MixedWidthAccessesAgree, at the last byte of memory: the word store of the first clause and the byte store of the
second. -/
theorem witness_mixed_width :
    let m := mach .x16 0 0 [(.r1, 0xbeef), (.r2, 0xdfff)]
    (m.reg .sp).toNat % Xlen.x16.wbytes = 0 ∧ (m.reg .sp).toNat < Config.memSize .x16 ∧ 1 < Xlen.x16.wbytes ∧
      (m.reg .r2).toNat = (m.reg .sp).toNat + 1 ∧
      exec (.stw .r0 .r1 .sp) ⟨.x16, m⟩ = .next ⟨.x16, stored m .r1 .sp⟩ ∧
      exec (.stb .r0 .r1 .r2) ⟨.x16, m⟩ = .next ⟨.x16, storedByte m .r1 .r2⟩ :=
  ⟨by decide, by decide, by decide, by decide, rfl, rfl⟩

/-- StoreIsSeenByNextFetch: a word over the last word of memory, a 32-bit word over both bytes of the next instruction, a
byte into its low byte, and a word elsewhere. -/
theorem witness_store_next_fetch :
    (let m := mach .x16 0xdffc 0x503e [(.r1, 0x0003)];
      m.status = .running ∧ m.fetchInstr = .ok (.stw .r0 .r1 .sp) ∧ (m.reg .sp).toNat % Xlen.x16.wbytes = 0 ∧
        (m.effectiveAddr .sp).toNat + 0 = m.pc.toNat + 2 ∧ (m.effectiveAddr .sp).toNat + 1 = m.pc.toNat + 3 ∧
        (m.effectiveAddr .sp).toNat < Config.memSize .x16 ∧ m.pc.toNat + 4 ≤ Config.memSize .x16) ∧
    (let m := mach .x32 0x102 0x502a [(.r2, 0x104)];
      m.status = .running ∧ m.fetchInstr = .ok (.stw .r0 .r1 .r2) ∧ (m.reg .r2).toNat % Xlen.x32.wbytes = 0 ∧
        (m.effectiveAddr .r2).toNat + 0 = m.pc.toNat + 2 ∧ (m.effectiveAddr .r2).toNat < Config.memSize .x32 ∧
        m.pc.toNat + 4 ≤ Config.memSize .x32) ∧
    (let m := mach .x16 0x100 0x102a [(.r2, 0x103)];
      m.fetchInstr = .ok (.stb .r0 .r1 .r2) ∧ (m.effectiveAddr .r2).toNat + 0 = m.pc.toNat + 3 ∧
        ∀ k, k < 1 → (m.effectiveAddr .r2).toNat + k ≠ m.pc.toNat + 2) :=
  ⟨⟨rfl, rfl, by decide, by decide, by decide, by decide, by decide⟩,
    ⟨rfl, rfl, by decide, by decide, by decide, by decide⟩, rfl, by decide, by decide⟩

/-- The fetch after a 32-bit store over the next instruction, and after a byte store into it. -/
theorem test_store_next_fetch :
    after (mach .x32 0x102 0x502a [(.r1, 0x0003beef), (.r2, 0x104)]) (fun _ m => m.fetch.toOption) = some (some 0x0003) ∧
    after (mach .x16 0x100 0x102a [(.r1, 0xaa03), (.r2, 0x103)] [(0x102, 0x00), (0x103, 0xff)])
      (fun _ m => m.fetch.toOption) = some (some 0x0003) := by decide +kernel

/-! ### Whole-machine rules -/

/-- InstructionsChangeOnlyTheirOwn, InstructionsReadOnlyTheirSources and PcChangesOnlyByIncrementOrBranch: a next state and
a fault, with two register files that agree on the sources only. -/
theorem witness_exec_outcomes :
    exec (.ldw .r1 .r0 .r2) ⟨.x16, mach .x16 0 0 [(.r2, 0xf004)]⟩ =
      .next ⟨.x16, (mach .x16 0 0 [(.r2, 0xf004)]).takeChar.setReg .r1 ((mach .x16 0 0 []).nextChar.setWidth 16)⟩ ∧
    exec (.ldw .r1 .r0 .r2) ⟨.x16, mach .x16 0 0 [(.r2, 0xf002)]⟩ = .fault (.accessFault 0xf002) ∧
    (∀ r, r ∈ (Instr.ldw .r1 .r0 .r2).sources →
      (mach .x16 0 0 [(.r2, 0xf002), (.r1, 5), (.r3, 7)]).regs.read r = (mach .x16 0 0 [(.r2, 0xf002)]).regs.read r) := by
  refine ⟨rfl, rfl, ?_⟩
  decide

/-- PcChangesOnlyByIncrementOrBranch and StepCountsInstructions: a running machine that steps. -/
theorem witness_running_step :
    (mach .x16 0 0xbafa [(.r2, 1)]).status = .running ∧
      after (mach .x16 0 0xbafa [(.r2, 1)]) (fun _ m => (m.pc.toNat, m.cycles)) = some (0xfffc, 1) ∧
      after (mach .x16 0 0x0003 []) (fun _ m => (m.pc.toNat, m.cycles)) = some (2, 0) := by decide +kernel

/-! ### The step -/

/-- StepRunsDecodedInstruction, at the last word of memory. -/
theorem witness_step_decodes :
    let m := mach .x16 0xdffe 0x5328 []
    m.status = .running ∧ m.pc.toNat % 2 = 0 ∧ m.pc.toNat + 2 ≤ Config.memSize .x16 ∧
      decodeWord (m.byteAt m.pc.toNat ++ m.byteAt (m.pc.toNat + 1)) = .ok (.addR .r3 .r1 .r2) :=
  ⟨rfl, by decide, by decide, rfl⟩

/-- FetchFaultsInOrder: each clause where it begins. -/
theorem witness_fetch_faults :
    ((mach .x16 1 0 []).status = .running ∧ (mach .x16 1 0 []).pc.toNat % 2 = 1) ∧
    ((mach .x16 0xe000 0 []).pc.toNat % 2 = 0 ∧ Config.memSize .x16 < (mach .x16 0xe000 0 []).pc.toNat + 2) ∧
    ((mach .x16 0xdffe 0x0007 []).pc.toNat % 2 = 0 ∧ (mach .x16 0xdffe 0x0007 []).pc.toNat + 2 ≤ Config.memSize .x16) ∧
    decodeWord ((mach .x16 0xdffe 0x0007 []).byteAt 0xdffe ++ (mach .x16 0xdffe 0x0007 []).byteAt 0xdfff) =
      .error (.unassigned 0x0007) := ⟨by decide, by decide, by decide, rfl⟩

/-- ExecFaultsExactlyAsListed: each of its cases, at the boundary of its range. -/
theorem witness_exec_faults :
    exec (.ldw .r1 .r2 .r3) ⟨.x16, mach .x16 0 0 [(.r3, 1)]⟩ = .fault (.reservedInstruction 0x414e) ∧
    exec (.stb .r0 .r1 .r3) ⟨.x16, mach .x16 0 0 [(.r3, 0xe000)]⟩ = .fault (.accessFault 0xe000) ∧
    exec (.stw .r0 .r1 .r3) ⟨.x32, mach .x32 0 0 [(.r3, 0xffffe)]⟩ = .fault (.misalignedData 0xffffe) ∧
    exec (.ldw .r1 .r0 .r3) ⟨.x16, mach .x16 0 0 [(.r3, 0xf002)]⟩ = .fault (.accessFault 0xf002) ∧
    exec (.stw .r0 .r1 .r3) ⟨.x16, mach .x16 0 0 [(.r3, 0xf004)]⟩ = .fault (.accessFault 0xf004) :=
  ⟨rfl, rfl, rfl, rfl, rfl⟩

/-- FaultsAreTerminalAndPrecise. -/
theorem witness_faulting_step : step ⟨.x16, mach .x16 5 0 []⟩ = .fault (.misalignedFetch 5) := rfl

/-- HaltedRunStays. -/
theorem witness_halted : ({ xlen := .x16, mach := (mach .x16 0 0 []).setStatus .halted } : State).mach.status = .halted := rfl

/-- RelativeBranchBaseIsNextInstruction and BadBranchTargetFaultsAtNextFetch: a branch of each form. -/
theorem witness_branches :
    (mach .x16 0x100 0xac1c []).status = .running ∧
    (mach .x16 0x100 0xac1c []).fetchInstr = .ok (.bezI .r4 28) ∧ (Instr.bezI .r4 28).isBranch = true ∧
    (mach .x16 0x100 0xbafa []).fetchInstr = .ok (.bnzI .r2 0xfa) ∧ (Instr.bnzI .r2 0xfa).isBranch = true ∧
    (mach .x16 0x100 0xa04f []).fetchInstr = .ok (.bezR .r0 .r2 .r3) ∧ (Instr.bezR .r0 .r2 .r3).isBranch = true ∧
    (mach .x16 0x100 0xa04c []).fetchInstr = .ok (.bezRAlias .r0 .r2 .r3) ∧
      (Instr.bezRAlias .r0 .r2 .r3).isBranch = true ∧
    (mach .x16 0x100 0xb04f []).fetchInstr = .ok (.bnzR .r0 .r2 .r3) ∧ (Instr.bnzR .r0 .r2 .r3).isBranch = true ∧
    (mach .x16 0x100 0xb04c []).fetchInstr = .ok (.bnzRAlias .r0 .r2 .r3) ∧
      (Instr.bnzRAlias .r0 .r2 .r3).isBranch = true :=
  ⟨rfl, rfl, rfl, rfl, rfl, rfl, rfl, rfl, rfl, rfl, rfl, rfl, rfl⟩

/-- Both kinds of bad pc after a taken branch: odd (a register and a relative one), and even just outside memory. -/
theorem witness_bad_targets :
    after (mach .x16 0x100 0xa04f [(.r3, 1)]) (fun _ m => (m.pc.toNat, faultOf m)) = some (1, some (.misalignedFetch 1)) ∧
    after (mach .x16 0x100 0xba01 [(.r2, 1)]) (fun _ m => (m.pc.toNat, faultOf m)) =
      some (0x103, some (.misalignedFetch 0x103)) ∧
    after (mach .x16 0x100 0xb04c [(.r2, 1), (.r3, 0xe000)]) (fun _ m => (m.pc.toNat, faultOf m)) =
      some (0xe000, some (.accessFault 0xe000)) ∧
    after (mach .x16 0x100 0xa04f [(.r2, 1), (.r3, 1)]) (fun _ m => m.pc.toNat) = some 0x102 := by decide +kernel

/-! ### Load and the invariant -/

/-- LoaderStoresTheImage and ResetHasMemoryInv: an image that loads, its last word at the end of memory, and an address it
does not cover. -/
theorem witness_boot :
    (Mach.boot .x16 [(0, 0x0003), (0xdffe, 0x1234)]).isSome = true ∧ ((0xdffe, 0x1234) : Nat × InstrWord) ∈
      ([(0, 0x0003), (0xdffe, 0x1234)] : Image) ∧ (Mach.boot .x16 [(0xe000, 0)]).isSome = false ∧
      ∀ c, c ∈ ([(0, 0x0003), (0xdffe, 0x1234)] : Image) → 2 ≠ c.1 ∧ 2 ≠ c.1 + 1 := by decide

/-- StepKeepsMemoryInv: a machine with the invariant whose step stores. -/
theorem witness_memory_inv : (mach .x16 0 0x503e []).mem.wf = true ∧
    (mach .x16 0 0x503e []).mem.below (Config.memSize .x16) = true ∧
    after (mach .x16 0 0x503e [(.r1, 0x1234)]) (bytesFrom 0xdffe 2) = some [0x12, 0x34] := by decide +kernel

/-! ### Object code -/

/-- ninetoone.asm (95_test_vectors.md section 1.5). -/
def ninetoone : List Char :=
  ("main\n\tldi r1,9\n\tldi r2,32\nloop\n\tldw sr,writei\n\tstw r1,sr\n\tldw sr,writec\n\tstw r2,sr\n" ++
    "\tsub r1,1\n\tbnz r1,loop\n\thcf\nwritec 0xf000\nwritei 0xf002\n").toList

/-- Its object code is Listing 3.2, word for word. -/
theorem test_assemble_ninetoone :
    assembleObject .op2_00 ninetoone =
      ["0000 9900", "0002 9909", "0004 9a00", "0006 9a20", "0008 9800", "000a 9824", "000c 4502", "000e 5036",
        "0010 9800", "0012 9822", "0014 4502", "0016 5056", "0018 6901", "001a 9800", "001c 9808", "001e b020",
        "0020 0003", "0022 f000", "0024 f002"].map String.toList := by decide +kernel

/-- Its intermediate code is that of Listing 3.3: rows of a label, of the halves of an ldi, of HCF and of data. -/
theorem test_listing_ninetoone :
    ["1\tmain", "2\t0000 9900 ldc0 r1,9", "2\t0002 9909 ldc1 r1,9", "5\t0008 9800 ldc0 at,writei",
      "5\t000c 4502 ldw sr,r0,at", "10\t001e b020 bnz r0,r1,at", "11\t0020 0003 hcf r0,r0,r0",
      "12\t0022 f000 writec 0xf000"].all (fun row => (debugListing .op2_00 ninetoone).contains row.toList) = true := by
  decide +kernel

/-- A line with neither a tab nor a label at its left margin is an error (log 26). -/
theorem test_leading_space : parseLine .op2_11 " ".toList = [.bad] ∧ parseLine .op2_11 " 5".toList = [.bad] := by
  decide +kernel

/-- A 32-bit line has a wider address. -/
theorem test_object_line_32 :
    parseObjectLine .x32 "00010000 9909".toList = some (0x10000, 0x9909) ∧
      objectLine .x32 (0x10000, 0x9909) = "00010000 9909".toList ∧ parseObjectLine .x32 "0000 9909".toList = none ∧
      parseObjectLine .x16 errorPattern = none := by decide +kernel

/-- ObjectCodeReadsBack: an image that loads, in each variant, its last address the highest that loads. -/
theorem witness_object_code :
    Image.ok .x16 [(0, 0x9909), (0xdffe, 0x0003)] = true ∧ 0xdffe < 16 ^ addrDigits .x16 ∧
      Image.ok .x32 [(0, 0x9909), (0xffffe, 0x0003)] = true ∧ 0xffffe < 16 ^ addrDigits .x32 := by decide +kernel

/-- ErrorsAndListingsAreNotRun: a source that assembles, one with an unknown label, and a listing with a row. -/
theorem witness_object_files :
    (assembleText .op2_11 ninetoone).isSome = true ∧ assembleText .op2_11 "\tbnz r1,nowhere".toList = none ∧
      debugListing .op2_11 "main".toList ≠ [] := by decide +kernel

end Sys2Proof.Tests.Slice0
end

section
/-! PROOFS. The statements about the architectural state (10_state.md). -/

namespace Sys2Proof.Proofs.State

open Sys2Proof Sys2Proof.Machine

/-- Settles O33: the register written and the registers left alone are the two cases, r0 among both (R21). -/
theorem noRegisterIsHardwired : Obligations.NoRegisterIsHardwired := by
  intro x m r q v
  split
  case isTrue hsame => rw [hsame, setReg_reg_same]
  case isFalse hother => exact setReg_reg_other m r q v hother

end Sys2Proof.Proofs.State
end

section
/-! PROOFS. The statements about the encoding (30_encoding.md). -/

namespace Sys2Proof.Proofs.Encoding

open Sys2Proof Sys2Proof.Machine

/-! ### The branches of the decoder -/

/-- The three ways a word is accepted, in the order the decoding algorithm tries them (R81). -/
theorem decodeWord_ok_cases {w : InstrWord} {i : Instr} (h : decodeWord w = .ok i) :
    (w = Config.hcfWord ∧ i = .hcf) ∨ (immField w = true ∧ decodeTypeI w = .ok i) ∨
    (immField w = false ∧ decodeTypeR w = .ok i) := by
  unfold decodeWord at h
  split at h
  case isTrue hhcf => exact .inl ⟨hhcf, by cases h; rfl⟩
  case isFalse =>
    split at h
    case isTrue himm => exact .inr (.inl ⟨himm, h⟩)
    case isFalse himm => exact .inr (.inr ⟨by simpa using himm, h⟩)

/-- Checking the fixed field changes no instruction: one that is admitted is the one that was read (R83). -/
theorem admitFixed_ok {w : InstrWord} {i j : Instr} (h : admitFixed w i = .ok j) : i.WellFormed ∧ j = i := by
  unfold admitFixed at h
  split at h
  case isTrue hwf => exact ⟨hwf, by cases h; rfl⟩
  case isFalse => cases h

/-- The type I half of the decoder gives instructions of type I only (R73). -/
theorem decodeTypeI_format {w : InstrWord} {i : Instr} (h : decodeTypeI w = .ok i) : i.format = .typeI := by
  unfold decodeTypeI at h
  split at h
  case h_12 => cases h
  all_goals cases h; rfl

/-- The type R half of the decoder gives instructions of type R only (R72): those without a fixed field, then those
with one. -/
theorem decodeTypeR_format {w : InstrWord} {i : Instr} (h : decodeTypeR w = .ok i) : i.format = .typeR := by
  unfold decodeTypeR at h
  split at h
  case h_1 | h_2 | h_3 | h_4 | h_5 | h_6 | h_7 => cases h; rfl
  case h_18 => cases h
  all_goals obtain ⟨-, rfl⟩ := admitFixed_ok h; rfl

/-- Settles O6: the decoder selects its half by bit 11, and each half gives one format; HCF, accepted before that
choice, has bit 11 clear and is of type R (R84). -/
theorem bitElevenTellsFormat : Obligations.BitElevenTellsFormat := by
  intro w i h
  change (immField w = false ↔ i.format = .typeR) ∧ (immField w = true ↔ i.format = .typeI)
  obtain ⟨rfl, rfl⟩ | ⟨himm, hdec⟩ | ⟨himm, hdec⟩ := decodeWord_ok_cases h
  · decide
  · simp [himm, decodeTypeI_format hdec]
  · simp [himm, decodeTypeR_format hdec]

/-! ### The fields of a word as numbers (R74) -/

section Fields

variable (w : InstrWord)

/-- A run of bits of a word, as a quotient and a remainder. -/
theorem extract_toNat (start len : Nat) : (w.extractLsb' start len).toNat = w.toNat / 2 ^ start % 2 ^ len := by
  rw [BitVec.extractLsb'_toNat, Nat.shiftRight_eq_div_pow]

/-- The Opcode field has no bits above it, so its remainder drops out. -/
theorem opcodeField_toNat : (opcodeField w).toNat = w.toNat / 4096 := by
  have hw : w.toNat < 2 ^ 16 := w.isLt
  have hbits := extract_toNat w 12 4
  rw [opcodeField]
  omega

theorem immField_eq_decide : immField w = decide (w.toNat / 2048 % 2 = 1) := by
  rw [immField, BitVec.getLsbD, Nat.testBit_eq_decide_div_mod_eq]

theorem rstField_index_toNat : (rstField w).index.toNat = w.toNat / 256 % 8 := by
  have hbits := extract_toNat w 8 3
  rw [rstField, Reg.index_ofIndex]
  omega

theorem rsAField_index_toNat : (rsAField w).index.toNat = w.toNat / 32 % 8 := by
  have hbits := extract_toNat w 5 3
  rw [rsAField, Reg.index_ofIndex]
  omega

theorem rsBField_index_toNat : (rsBField w).index.toNat = w.toNat / 4 % 8 := by
  have hbits := extract_toNat w 2 3
  rw [rsBField, Reg.index_ofIndex]
  omega

theorem op2Field_toNat : (op2Field w).toNat = w.toNat % 4 := by
  have hbits := extract_toNat w 0 2
  rw [op2Field]
  omega

theorem immediateField_toNat : (immediateField w).toNat = w.toNat % 256 := by
  have hbits := extract_toNat w 0 8
  rw [immediateField]
  omega

end Fields

/-- Settles O5, field by field. -/
theorem fieldsAreTheirBits : Obligations.FieldsAreTheirBits := fun w =>
  ⟨opcodeField_toNat w, immField_eq_decide w, rstField_index_toNat w, rsAField_index_toNat w, rsBField_index_toNat w,
    op2Field_toNat w, immediateField_toNat w⟩

/-! ### Sign extension (R77) -/

/-- An immediate fits a word of either width. -/
theorem eight_le_bits (x : Xlen) : 8 ≤ x.bits := by cases x <;> decide

/-- Below bit 8 the extended value has the immediate's bits, from there up its bit 7. -/
theorem sextImm_getLsbD (x : Xlen) (imm : BitVec 8) {k : Nat} (hk : k < x.bits) :
    (sextImm x imm).getLsbD k = if k < 8 then imm.getLsbD k else imm.getLsbD 7 := by
  rw [sextImm, BitVec.getLsbD_signExtend, decide_eq_true hk, Bool.true_and, BitVec.msb_eq_getLsbD_last]

@[simp] theorem sextImm_toInt (x : Xlen) (imm : BitVec 8) : (sextImm x imm).toInt = imm.toInt :=
  BitVec.toInt_signExtend_of_le (eight_le_bits x)

/-- Settles O32: the bits and the signed value of the extension, and the range of a signed byte. -/
theorem signExtensionCopiesBitSeven : Obligations.SignExtensionCopiesBitSeven := by
  intro x imm
  have hmax : imm.toInt < 128 := BitVec.toInt_lt
  exact ⟨fun k => sextImm_getLsbD x imm, sextImm_toInt x imm, BitVec.le_toInt imm, by omega⟩

end Sys2Proof.Proofs.Encoding
end

section
/-! PROOFS. The statements about the computation class (40_computation.md). -/

namespace Sys2Proof.Proofs.Computation

open Sys2Proof Sys2Proof.Machine Sys2Proof.Proofs.Encoding

/-! ### Encoded instructions, read back (30_encoding.md R81) -/

/-- A type I word has bit 11 set, which the word of HCF has not, so the decoder takes its type I half. -/
theorem decodeWord_encodeI (opcode : BitVec 4) (d : Reg) (imm : BitVec 8) :
    decodeWord (encodeI opcode d imm) = decodeTypeI (encodeI opcode d imm) := by
  have hbit : immField (encodeI opcode d imm) = true := immField_encodeI opcode d imm
  have hhcf : encodeI opcode d imm ≠ Config.hcfWord := fun h => absurd (h ▸ hbit) (by decide)
  rw [decodeWord, if_neg hhcf, if_pos hbit]

/-- A type R word whose Opcode and Op2 are not those of HCF is read by the decoder's type R half. -/
theorem decodeWord_encodeR {opcode : BitVec 4} {op2 : BitVec 2} (d a b : Reg) (hop : ¬ (opcode = 0 ∧ op2 = 3)) :
    decodeWord (encodeR opcode op2 d a b) = decodeTypeR (encodeR opcode op2 d a b) := by
  have hhcf : encodeR opcode op2 d a b ≠ Config.hcfWord := by
    intro h
    have hopcode : opcode = 0 := by rw [← opcodeField_encodeR opcode op2 d a b, h]; rfl
    have hop2 : op2 = 3 := by rw [← op2Field_encodeR opcode op2 d a b, h]; rfl
    exact hop ⟨hopcode, hop2⟩
  rw [decodeWord, if_neg hhcf, immField_encodeR, if_neg Bool.false_ne_true]

/-- Each half selects the instruction by its own fields; the type R half admits a fixed field that is r0 (R83). -/
theorem decodeWord_encode {i : Instr} (h : i.WellFormed) : decodeWord (encode i) = .ok i := by
  cases i with
  | hcf => rfl
  | andI | orI | xorI | sltI | sltuI | addI | subI | ldr | ldc | bezI | bnzI =>
    rw [encode, decodeWord_encodeI]
    simp [decodeTypeI]
  | andR | orR | xorR | sltR | sltuR | addR | subR =>
    rw [encode, decodeWord_encodeR _ _ _ (by decide)]
    simp [decodeTypeR]
  | lsr | asr | ldb | stb | ldw | stw | bezR | bezRAlias | bnzR | bnzRAlias =>
    rw [encode, decodeWord_encodeR _ _ _ (by decide)]
    simp [decodeTypeR, admitFixed, h]

/-! ### The instructions as register writes

Each instruction of the class writes one value, computed from the registers before it (R129). -/

section Meanings

variable {x : Xlen} (m : Mach x) (d a b : Reg) (imm : BitVec 8)

/-- A register write leaves unchanged all that the class leaves unchanged. -/
theorem setReg_onlyReg (v : Word x) : m.OnlyReg d (m.setReg d v) :=
  ⟨fun r hr => setReg_reg_other m d r v hr, rfl, fun _ => rfl, ⟨rfl, rfl, rfl, rfl, rfl⟩, rfl, rfl⟩

theorem exec_andR : exec (.andR d a b) ⟨x, m⟩ = .next ⟨x, m.setReg d (m.reg a &&& m.reg b)⟩ := rfl
theorem exec_andI : exec (.andI d imm) ⟨x, m⟩ = .next ⟨x, m.setReg d (m.reg d &&& zextImm x imm)⟩ := rfl
theorem exec_orR : exec (.orR d a b) ⟨x, m⟩ = .next ⟨x, m.setReg d (m.reg a ||| m.reg b)⟩ := rfl
theorem exec_orI : exec (.orI d imm) ⟨x, m⟩ = .next ⟨x, m.setReg d (m.reg d ||| zextImm x imm)⟩ := rfl
theorem exec_xorR : exec (.xorR d a b) ⟨x, m⟩ = .next ⟨x, m.setReg d (m.reg a ^^^ m.reg b)⟩ := rfl
theorem exec_xorI : exec (.xorI d imm) ⟨x, m⟩ = .next ⟨x, m.setReg d (m.reg d ^^^ sextImm x imm)⟩ := rfl
theorem exec_sltR :
    exec (.sltR d a b) ⟨x, m⟩ = .next ⟨x, m.setReg d (boolWord x (sltCondition (m.reg a) (m.reg b)))⟩ := rfl
theorem exec_sltuR :
    exec (.sltuR d a b) ⟨x, m⟩ = .next ⟨x, m.setReg d (boolWord x (sltuCondition (m.reg a) (m.reg b)))⟩ := rfl
theorem exec_addR : exec (.addR d a b) ⟨x, m⟩ = .next ⟨x, m.setReg d (m.reg a + m.reg b)⟩ := rfl
theorem exec_addI : exec (.addI d imm) ⟨x, m⟩ = .next ⟨x, m.setReg d (m.reg d + sextImm x imm)⟩ := rfl
theorem exec_subI : exec (.subI d imm) ⟨x, m⟩ = .next ⟨x, m.setReg d (m.reg d - sextImm x imm)⟩ := rfl
theorem exec_ldr : exec (.ldr d imm) ⟨x, m⟩ = .next ⟨x, m.setReg d (sextImm x imm)⟩ := rfl
theorem exec_ldc : exec (.ldc d imm) ⟨x, m⟩ = .next ⟨x, m.setReg d ((m.reg d <<< 8) + zextImm x imm)⟩ := rfl

end Meanings

/-- A well-formed instruction that writes v to x[Rst]: its word reads back, it completes, nothing but x[Rst] changes,
and what holds of the machine with v written holds after it. -/
theorem completes_of_exec_setReg {x : Xlen} {m : Mach x} {i : Instr} {d : Reg} {v : Word x} {Post : Mach x → Prop}
    (hwf : i.WellFormed) (hexec : exec i ⟨x, m⟩ = .next ⟨x, m.setReg d v⟩) (hpost : Post (m.setReg d v)) :
    decodeWord (encode i) = .ok i ∧ ∃ m', exec i ⟨x, m⟩ = .next ⟨x, m'⟩ ∧ m.OnlyReg d m' ∧ Post m' :=
  ⟨decodeWord_encode hwf, _, hexec, setReg_onlyReg m d v, hpost⟩

/-! ### The values written -/

section Values

variable {x : Xlen} (u v : Word x) (imm : BitVec 8)

/-- Zero extension keeps the immediate's eight bits and has no others (30_encoding.md R78). -/
theorem zextImm_getLsbD (k : Nat) : (zextImm x imm).getLsbD k = (decide (k < 8) && imm.getLsbD k) := by
  rw [zextImm, BitVec.getLsbD_setWidth]
  by_cases hk : k < 8
  · have hbits : k < x.bits := Nat.lt_of_lt_of_le hk (eight_le_bits x)
    rw [decide_eq_true hk, decide_eq_true hbits]
  · rw [BitVec.getLsbD_of_ge imm k (by omega), Bool.and_false, Bool.and_false]

theorem zextImm_toNat : (zextImm x imm).toNat = imm.toNat :=
  BitVec.toNat_setWidth_of_le (eight_le_bits x)

/-- A condition as a register value is the number 1 or 0 over the whole word (R116, R118). -/
theorem boolWord_toNat (c : Bool) : (boolWord x c).toNat = if c then 1 else 0 := by
  cases x <;> cases c <;> rfl

theorem boolWord_sltCondition_toNat :
    (boolWord x (sltCondition u v)).toNat = if u.toInt < v.toInt then 1 else 0 := by
  rw [boolWord_toNat, sltCondition, BitVec.slt_eq_decide]
  simp only [decide_eq_true_eq]

theorem boolWord_sltuCondition_toNat :
    (boolWord x (sltuCondition u v)).toNat = if u.toNat < v.toNat then 1 else 0 := by
  rw [boolWord_toNat, sltuCondition, BitVec.ult_eq_decide]
  simp only [decide_eq_true_eq]

/-- Reducing to the signed range first does not change the remainder. -/
theorem bmod_emod_two_pow (z : Int) (n : Nat) : z.bmod (2 ^ n) % 2 ^ n = z % 2 ^ n := by
  exact_mod_cast Int.bmod_emod (x := z) (m := 2 ^ n)

/-- The unsigned value of a word is its signed value modulo 2^XLEN. -/
theorem toNat_eq_toInt_emod : (v.toNat : Int) = v.toInt % 2 ^ x.bits := by
  have hlt : (v.toNat : Int) < 2 ^ x.bits := by exact_mod_cast v.isLt
  rw [BitVec.toInt_eq_toNat_bmod, bmod_emod_two_pow, Int.emod_eq_of_lt (Int.natCast_nonneg _) hlt]

/-- Adding a word adds its signed value, modulo 2^XLEN (R121). -/
theorem toNat_add_eq_toInt : ((u + v).toNat : Int) = (u.toNat + v.toInt) % 2 ^ x.bits := by
  rw [toNat_eq_toInt_emod (u + v), BitVec.toInt_add, bmod_emod_two_pow, toNat_eq_toInt_emod u, Int.emod_add_emod]

/-- Subtracting a word subtracts its signed value, modulo 2^XLEN (R123). -/
theorem toNat_sub_eq_toInt : ((u - v).toNat : Int) = (u.toNat - v.toInt) % 2 ^ x.bits := by
  rw [toNat_eq_toInt_emod (u - v), BitVec.toInt_sub, bmod_emod_two_pow, toNat_eq_toInt_emod u, Int.emod_sub_emod]

/-- The shifted register has no bit where the immediate has one. -/
theorem shiftLeft_and_zextImm : (v <<< 8) &&& zextImm x imm = 0 := by
  apply BitVec.eq_of_getLsbD_eq
  intro k hk
  rw [BitVec.getLsbD_and, BitVec.getLsbD_shiftLeft, zextImm_getLsbD]
  by_cases h : k < 8 <;> simp [h]

/-- So the sum of R125's first line is the concatenation of its second. -/
theorem ldcValue_getLsbD {k : Nat} (hk : k < x.bits) :
    ((v <<< 8) + zextImm x imm).getLsbD k = if k < 8 then imm.getLsbD k else v.getLsbD (k - 8) := by
  rw [BitVec.add_eq_or_of_and_eq_zero _ _ (shiftLeft_and_zextImm v imm), BitVec.getLsbD_or, BitVec.getLsbD_shiftLeft,
    zextImm_getLsbD]
  by_cases h : k < 8 <;> simp [h, hk]

/-- The sum of R125 does not carry out of the word: the shifted value is a multiple of 256 below 2^XLEN. -/
theorem ldcValue_toNat :
    ((v <<< 8) + zextImm x imm).toNat = v.toNat * 256 % 2 ^ x.bits + imm.toNat := by
  have himm : imm.toNat < 256 := imm.isLt
  rw [BitVec.toNat_add, BitVec.toNat_shiftLeft, zextImm_toNat, Nat.shiftLeft_eq]
  cases x <;> simp only [Xlen.bits] <;> omega

end Values

/-! ### The statements

The encoding is that of the rule, which fixes no field; the instruction completes with one register written; and the
value written is the one the rule gives. -/

/-- Settles O8. -/
theorem andIsBitwiseProduct : Obligations.AndIsBitwiseProduct := by
  intro x m d a b imm
  refine ⟨completes_of_exec_setReg (.inl rfl) (exec_andR m d a b) fun k => ?_,
    completes_of_exec_setReg (.inl rfl) (exec_andI m d imm) fun k => ?_⟩
  · rw [setReg_reg_same, BitVec.getLsbD_and]
  · rw [setReg_reg_same, BitVec.getLsbD_and, zextImm_getLsbD]

/-- Settles O9. -/
theorem orIsBitwiseSum : Obligations.OrIsBitwiseSum := by
  intro x m d a b imm
  refine ⟨completes_of_exec_setReg (.inl rfl) (exec_orR m d a b) fun k => ?_,
    completes_of_exec_setReg (.inl rfl) (exec_orI m d imm) fun k => ?_⟩
  · rw [setReg_reg_same, BitVec.getLsbD_or]
  · rw [setReg_reg_same, BitVec.getLsbD_or, zextImm_getLsbD]

/-- Settles O10: unlike AND and OR, the immediate is sign-extended. -/
theorem xorIsBitwiseDifference : Obligations.XorIsBitwiseDifference := by
  intro x m d a b imm
  refine ⟨completes_of_exec_setReg (.inl rfl) (exec_xorR m d a b) fun k => ?_,
    completes_of_exec_setReg (.inl rfl) (exec_xorI m d imm) fun k hk => ?_⟩
  · rw [setReg_reg_same, BitVec.getLsbD_xor]
  · rw [setReg_reg_same, BitVec.getLsbD_xor, sextImm_getLsbD x imm hk]

/-- Settles O11. -/
theorem sltComparesSigned : Obligations.SltComparesSigned := by
  intro x m d a b
  refine completes_of_exec_setReg (.inl rfl) (exec_sltR m d a b) ?_
  rw [setReg_reg_same, boolWord_sltCondition_toNat]

/-- Settles O12. -/
theorem sltuComparesUnsigned : Obligations.SltuComparesUnsigned := by
  intro x m d a b
  refine completes_of_exec_setReg (.inl rfl) (exec_sltuR m d a b) ?_
  rw [setReg_reg_same, boolWord_sltuCondition_toNat]

/-- Settles O14: the immediate form adds the signed value of the extended immediate. -/
theorem addWrapsModulo : Obligations.AddWrapsModulo := by
  intro x m d a b imm
  refine ⟨completes_of_exec_setReg (.inl rfl) (exec_addR m d a b) ?_,
    completes_of_exec_setReg (.inl rfl) (exec_addI m d imm) ?_⟩
  · rw [setReg_reg_same, BitVec.toNat_add]
  · rw [setReg_reg_same, toNat_add_eq_toInt, sextImm_toInt]

/-- Settles O16. -/
theorem subImmediateWrapsModulo : Obligations.SubImmediateWrapsModulo := by
  intro x m d imm
  refine completes_of_exec_setReg (.inl rfl) (exec_subI m d imm) ?_
  rw [setReg_reg_same, toNat_sub_eq_toInt, sextImm_toInt]

/-- Settles O17: the value written does not depend on the machine. -/
theorem ldrLoadsSigned : Obligations.LdrLoadsSigned := by
  intro x m d imm
  refine completes_of_exec_setReg (.inl rfl) (exec_ldr m d imm) ?_
  rw [setReg_reg_same, sextImm_toInt]

/-- Settles O18: the sum of R125's first line, and the concatenation of its second. -/
theorem ldcShiftsAndInserts : Obligations.LdcShiftsAndInserts := by
  intro x m d imm
  refine completes_of_exec_setReg (.inl rfl) (exec_ldc m d imm) ⟨?_, fun k hk => ?_⟩
  · rw [setReg_reg_same, ldcValue_toNat]
  · rw [setReg_reg_same, ldcValue_getLsbD _ _ hk]

end Sys2Proof.Proofs.Computation
end

section
/-! PROOFS. The statements about the pseudo-operations (45_pseudo_operations.md). -/

namespace Sys2Proof.Proofs.PseudoOperations

open Sys2Proof Sys2Proof.Machine Sys2Proof.Proofs.Computation

/-! ### A register written with its own value -/

theorem regFile_write_read_self {x : Xlen} (f : RegFile x) (r : Reg) : f.write r (f.read r) = f := by
  cases r <;> rfl

theorem setReg_reg_self {x : Xlen} (m : Mach x) (r : Reg) : m.setReg r (m.reg r) = m := by
  rw [Mach.setReg, Mach.reg, regFile_write_read_self]

/-- The conjunction of a register with itself is its own value, so every and r,r,r is a nop. -/
theorem exec_andR_self {x : Xlen} (m : Mach x) (r : Reg) : exec (.andR r r r) ⟨x, m⟩ = .next ⟨x, m⟩ := by
  rw [exec_andR, BitVec.and_self, setReg_reg_self]

/-! ### The statements -/

/-- Settles O56: the expansion by its definition, the word as the encoding of that instruction, and the execution as
r0 written with its own value. -/
theorem nopChangesNothing : Obligations.NopChangesNothing := by
  have hword : encode (.andR .r0 .r0 .r0) = 0x0000 := by decide
  refine ⟨fun _ _ _ _ => rfl, ?_, fun _ m => exec_andR_self m .r0⟩
  rw [← hword]
  exact decodeWord_encode (.inl rfl)

end Sys2Proof.Proofs.PseudoOperations
end

section
/-! PROOFS. The decoder and the encoder as inverse maps, and the opcode table (30_encoding.md sections 3 and 4). -/

namespace Sys2Proof.Proofs.Decoder

open Sys2Proof Sys2Proof.Machine Sys2Proof.Proofs.Encoding Sys2Proof.Proofs.Computation

/-! ### A word is made of its fields (R72, R73) -/

section Fields

variable {w : InstrWord}

theorem rstField_index (w : InstrWord) : (rstField w).index = w.extractLsb' 8 3 := Reg.index_ofIndex _
theorem rsAField_index (w : InstrWord) : (rsAField w).index = w.extractLsb' 5 3 := Reg.index_ofIndex _
theorem rsBField_index (w : InstrWord) : (rsBField w).index = w.extractLsb' 2 3 := Reg.index_ofIndex _

/-- A word with bit 11 set is the type I word of its fields. -/
theorem encodeI_fields (himm : immField w = true) :
    encodeI (opcodeField w) (rstField w) (immediateField w) = w := by
  apply BitVec.eq_of_getLsbD_eq
  intro k hk
  rw [encodeI_getLsbD, rstField_index]
  have hbit : w[11] = true := himm
  rcases Laws.bit_positions hk with rfl | rfl | rfl | rfl | rfl | rfl | rfl | rfl | rfl | rfl | rfl | rfl | rfl | rfl |
    rfl | rfl <;> simp [opcodeField, immediateField, hbit]

/-- A word with bit 11 clear is the type R word of its fields. -/
theorem encodeR_fields (himm : immField w = false) :
    encodeR (opcodeField w) (op2Field w) (rstField w) (rsAField w) (rsBField w) = w := by
  apply BitVec.eq_of_getLsbD_eq
  intro k hk
  rw [encodeR_getLsbD, rstField_index, rsAField_index, rsBField_index]
  have hbit : w[11] = false := himm
  rcases Laws.bit_positions hk with rfl | rfl | rfl | rfl | rfl | rfl | rfl | rfl | rfl | rfl | rfl | rfl | rfl | rfl |
    rfl | rfl <;> simp [opcodeField, op2Field, hbit]

/-- The same word, with the numbers by which the decoder selects the instruction. -/
theorem encodeI_of_selected {opcode : Nat} (himm : immField w = true) (hop : (opcodeField w).toNat = opcode) :
    encodeI (BitVec.ofNat 4 opcode) (rstField w) (immediateField w) = w := by
  rw [← hop, BitVec.ofNat_toNat, BitVec.setWidth_eq, encodeI_fields himm]

@[inherit_doc encodeI_of_selected]
theorem encodeR_of_selected {opcode op2 : Nat} (himm : immField w = false) (hop2 : (op2Field w).toNat = op2)
    (hop : (opcodeField w).toNat = opcode) :
    encodeR (BitVec.ofNat 4 opcode) (BitVec.ofNat 2 op2) (rstField w) (rsAField w) (rsBField w) = w := by
  rw [← hop, ← hop2, BitVec.ofNat_toNat, BitVec.setWidth_eq, BitVec.ofNat_toNat, BitVec.setWidth_eq,
    encodeR_fields himm]

end Fields

/-! ### Both round trips -/

/-- Settles O1: the word by decodeWord_encode, the bytes by joining them to that word. -/
theorem decodeEncodeAgree : Obligations.DecodeEncodeAgree := by
  intro i hwf
  refine ⟨decodeWord_encode hwf, fun rest => ?_⟩
  rw [encodeBytes, decode_wordBytes, decodeWord_encode hwf, Except.map]

/-- What the type I half accepts is well formed and encodes to the word it was read from. -/
theorem reencode_of_decodeTypeI {w : InstrWord} {i : Instr} (himm : immField w = true) (h : decodeTypeI w = .ok i) :
    i.WellFormed ∧ encode i = w := by
  unfold decodeTypeI at h
  split at h
  case h_12 => cases h
  all_goals
    rename_i hop
    cases h
    exact ⟨.inl rfl, encodeI_of_selected himm hop⟩

/-- What the type R half accepts is well formed and encodes to the word it was read from: the instructions without a
fixed field, then those with one. -/
theorem reencode_of_decodeTypeR {w : InstrWord} {i : Instr} (himm : immField w = false) (h : decodeTypeR w = .ok i) :
    i.WellFormed ∧ encode i = w := by
  unfold decodeTypeR at h
  split at h
  case h_1 hop2 hop | h_2 hop2 hop | h_3 hop2 hop | h_4 hop2 hop | h_5 hop2 hop | h_6 hop2 hop | h_7 hop2 hop =>
    cases h
    exact ⟨.inl rfl, encodeR_of_selected himm hop2 hop⟩
  case h_18 => cases h
  all_goals
    rename_i hop2 hop
    obtain ⟨hwf, rfl⟩ := admitFixed_ok h
    exact ⟨hwf, encodeR_of_selected himm hop2 hop⟩

/-- An accepted word is the encoding of the well-formed instruction it decodes to. -/
theorem reencode_of_decodeWord {w : InstrWord} {i : Instr} (h : decodeWord w = .ok i) :
    i.WellFormed ∧ encode i = w := by
  obtain ⟨rfl, rfl⟩ | ⟨himm, hdec⟩ | ⟨himm, hdec⟩ := decodeWord_ok_cases h
  · exact ⟨.inl rfl, rfl⟩
  · exact reencode_of_decodeTypeI himm hdec
  · exact reencode_of_decodeTypeR himm hdec

/-- Settles O2. -/
theorem acceptedWordsReencode : Obligations.AcceptedWordsReencode := fun _ _ => reencode_of_decodeWord

/-! ### The opcode table (R90) -/

/-- The word of a well-formed instruction matches the row of that instruction, and the row stands in the table. -/
theorem rowCovers : (i : Instr) → Laws.RowCovers.Statement i
  | .andR d a b => Laws.RowCovers.andR d a b
  | .andI d imm => Laws.RowCovers.andI d imm
  | .orR d a b => Laws.RowCovers.orR d a b
  | .orI d imm => Laws.RowCovers.orI d imm
  | .xorR d a b => Laws.RowCovers.xorR d a b
  | .xorI d imm => Laws.RowCovers.xorI d imm
  | .sltR d a b => Laws.RowCovers.sltR d a b
  | .sltI d imm => Laws.RowCovers.sltI d imm
  | .sltuR d a b => Laws.RowCovers.sltuR d a b
  | .sltuI d imm => Laws.RowCovers.sltuI d imm
  | .addR d a b => Laws.RowCovers.addR d a b
  | .addI d imm => Laws.RowCovers.addI d imm
  | .subR d a b => Laws.RowCovers.subR d a b
  | .subI d imm => Laws.RowCovers.subI d imm
  | .ldr d imm => Laws.RowCovers.ldr d imm
  | .ldc d imm => Laws.RowCovers.ldc d imm
  | .lsr d a b => Laws.RowCovers.lsr d a b
  | .asr d a b => Laws.RowCovers.asr d a b
  | .ldb d a b => Laws.RowCovers.ldb d a b
  | .stb d a b => Laws.RowCovers.stb d a b
  | .ldw d a b => Laws.RowCovers.ldw d a b
  | .stw d a b => Laws.RowCovers.stw d a b
  | .bezR d a b => Laws.RowCovers.bezR d a b
  | .bezRAlias d a b => Laws.RowCovers.bezRAlias d a b
  | .bezI d imm => Laws.RowCovers.bezI d imm
  | .bnzR d a b => Laws.RowCovers.bnzR d a b
  | .bnzRAlias d a b => Laws.RowCovers.bnzRAlias d a b
  | .bnzI d imm => Laws.RowCovers.bnzI d imm
  | .hcf => Laws.RowCovers.hcf

/-- Each row of the table is that of the instruction its own pattern decodes to. -/
theorem row_of_pattern {r : OpcodeRow} (h : r ∈ opcodeRows) : ∃ i, decodeWord r.pattern = .ok i ∧ i.row = r := by
  have hall : ∀ q ∈ opcodeRows, (decodeWord q.pattern).toOption.map Instr.row = some q := by decide
  obtain ⟨i, hdec, hrow⟩ := Option.map_eq_some_iff.mp (hall r h)
  refine ⟨i, ?_, hrow⟩
  cases hword : decodeWord r.pattern with
  | ok j => rw [hword] at hdec; cases hdec; rfl
  | error e => rw [hword] at hdec; cases hdec

/-- Bit 11 selects the half of the decoder: a word with that bit set is not that of HCF. -/
theorem decodeWord_typeI {w : InstrWord} (himm : immField w = true) : decodeWord w = decodeTypeI w := by
  rw [← encodeI_fields himm, decodeWord_encodeI]

/-- The word of HCF is the only one with bit 11 clear that the type R half does not decide. -/
theorem decodeWord_typeR {w : InstrWord} (himm : immField w = false) (hhcf : w ≠ Config.hcfWord) :
    decodeWord w = decodeTypeR w := by
  rw [decodeWord, if_neg hhcf, himm, if_neg Bool.false_ne_true]

section Matching

variable {w p mask : InstrWord}

/-- A field that a mask keeps is that of the pattern. -/
theorem extract_of_match (h : w &&& mask = p) {start len : Nat}
    (hkeep : mask.extractLsb' start len = BitVec.allOnes len) :
    w.extractLsb' start len = p.extractLsb' start len := by
  rw [← h, BitVec.extractLsb'_and, hkeep, BitVec.and_allOnes]

theorem immField_of_match (h : w &&& mask = p) (hkeep : immField mask = true) : immField w = immField p := by
  rw [← h, immField, immField, BitVec.getLsbD_and, show mask.getLsbD 11 = true from hkeep, Bool.and_true]

/-- A register field that a mask keeps is that of the pattern. -/
theorem ofIndex_of_match (h : w &&& mask = p) {start : Nat} (hkeep : mask.extractLsb' start 3 = BitVec.allOnes 3) :
    Reg.ofIndex (w.extractLsb' start 3) = Reg.ofIndex (p.extractLsb' start 3) := by
  rw [extract_of_match h hkeep]

/-- A word of a type I row is decoded by its Opcode. -/
theorem decodeWord_of_match_typeI (h : w &&& 0xF800 = p) (himm : immField p = true) :
    (opcodeField w).toNat = p.toNat / 4096 ∧ decodeWord w = decodeTypeI w := by
  have hop : opcodeField w = opcodeField p := extract_of_match h (by decide)
  exact ⟨by rw [hop, opcodeField_toNat], decodeWord_typeI ((immField_of_match h (by decide)).trans himm)⟩

/-- A word of a type R row other than that of HCF is decoded by its Opcode and Op2. -/
theorem decodeWord_of_match_typeR (h : w &&& mask = p)
    (hkeep : mask.extractLsb' 12 4 = BitVec.allOnes 4 ∧ immField mask = true ∧ mask.extractLsb' 0 2 = BitVec.allOnes 2)
    (himm : immField p = false) (hhcf : ¬ (opcodeField p = 0 ∧ op2Field p = 3)) :
    (opcodeField w).toNat = p.toNat / 4096 ∧ (op2Field w).toNat = p.toNat % 4 ∧ decodeWord w = decodeTypeR w := by
  obtain ⟨hkeepOp, hkeepImm, hkeepOp2⟩ := hkeep
  have hop : opcodeField w = opcodeField p := extract_of_match h hkeepOp
  have hop2 : op2Field w = op2Field p := extract_of_match h hkeepOp2
  have hne : w ≠ Config.hcfWord := fun hw => hhcf ⟨by rw [← hop, hw]; rfl, by rw [← hop2, hw]; rfl⟩
  exact ⟨by rw [hop, opcodeField_toNat], by rw [hop2, op2Field_toNat],
    decodeWord_typeR ((immField_of_match h hkeepImm).trans himm) hne⟩

end Matching

/-- A word that matches the row of some instruction is accepted, as an instruction of that row. -/
theorem decodeWord_of_match_row {w : InstrWord} (i : Instr) (h : w &&& i.row.mask = i.row.pattern) :
    ∃ j, decodeWord w = .ok j ∧ j.row = i.row := by
  cases i with
  | hcf =>
    obtain rfl : w = 0x0003 := by rw [← BitVec.and_allOnes (x := w)]; exact h
    exact ⟨.hcf, rfl, rfl⟩
  | andI | orI | xorI | sltI | sltuI | addI | subI | ldr | ldc | bezI | bnzI =>
    simp only [Instr.row] at h ⊢
    obtain ⟨hop, hdec⟩ := decodeWord_of_match_typeI h (by decide)
    exact ⟨_, hdec.trans (by rw [decodeTypeI, hop]; rfl), rfl⟩
  | andR | orR | xorR | sltR | sltuR | addR | subR =>
    simp only [Instr.row] at h ⊢
    obtain ⟨hop, hop2, hdec⟩ := decodeWord_of_match_typeR h (by decide) (by decide) (by decide)
    exact ⟨_, hdec.trans (by rw [decodeTypeR, hop, hop2]; rfl), rfl⟩
  | lsr | asr =>
    simp only [Instr.row] at h ⊢
    obtain ⟨hop, hop2, hdec⟩ := decodeWord_of_match_typeR h (by decide) (by decide) (by decide)
    have hfixed : rsBField w = .r0 := ofIndex_of_match h (by decide)
    exact ⟨_, hdec.trans (by rw [decodeTypeR, hop, hop2, hfixed]; rfl), rfl⟩
  | ldb | ldw =>
    simp only [Instr.row] at h ⊢
    obtain ⟨hop, hop2, hdec⟩ := decodeWord_of_match_typeR h (by decide) (by decide) (by decide)
    have hfixed : rsAField w = .r0 := ofIndex_of_match h (by decide)
    exact ⟨_, hdec.trans (by rw [decodeTypeR, hop, hop2, hfixed]; rfl), rfl⟩
  | stb | stw | bezR | bezRAlias | bnzR | bnzRAlias =>
    simp only [Instr.row] at h ⊢
    obtain ⟨hop, hop2, hdec⟩ := decodeWord_of_match_typeR h (by decide) (by decide) (by decide)
    have hfixed : rstField w = .r0 := ofIndex_of_match h (by decide)
    exact ⟨_, hdec.trans (by rw [decodeTypeR, hop, hop2, hfixed]; rfl), rfl⟩

/-- The same for a row given by itself. -/
theorem decodeWord_of_match {w : InstrWord} {r : OpcodeRow} (hr : r ∈ opcodeRows) (h : w &&& r.mask = r.pattern) :
    ∃ j, decodeWord w = .ok j ∧ j.row = r := by
  obtain ⟨i, -, rfl⟩ := row_of_pattern hr
  exact decodeWord_of_match_row i h

/-- Settles O3: an accepted word is an encoding, which its row covers; a word of a row is decoded by the fields the
row's mask keeps; and since decoding is a function, a word has one row. -/
theorem decodesExactlyTableRows : Obligations.DecodesExactlyTableRows := by
  refine ⟨fun w i h => ?_, fun w r hr h => decodeWord_of_match hr h, fun w r q hr hq hwr hwq => ?_⟩
  · obtain ⟨hwf, rfl⟩ := reencode_of_decodeWord h
    exact rowCovers i hwf
  · obtain ⟨i, hi, rfl⟩ := decodeWord_of_match hr hwr
    obtain ⟨j, hj, rfl⟩ := decodeWord_of_match hq hwq
    rw [Except.ok.inj (hi.symm.trans hj)]

/-! ### The reserved words (section 4) -/

/-- Admitting is refused exactly for a register other than r0 in the fixed field. -/
theorem admitFixed_error_iff {w : InstrWord} {i : Instr} {e : DecodeError} :
    admitFixed w i = .error e ↔ e = .fixedFieldNotZero w ∧ ¬ i.WellFormed := by
  unfold admitFixed
  split
  case isTrue hwf => simp [hwf]
  case isFalse hwf => simp [hwf, eq_comm]

section Reserved

variable {w : InstrWord} {e : DecodeError}

/-- Type I is refused for an Opcode without an instruction, and for nothing else. -/
theorem decodeTypeI_error_iff :
    decodeTypeI w = .error e ↔ e = .unassigned w ∧ (opcodeField w).toNat ∈ [7, 12, 13, 14, 15] := by
  have hop := (opcodeField w).isLt
  unfold decodeTypeI
  split
  case h_12 =>
    have hmem : (opcodeField w).toNat ∈ [7, 12, 13, 14, 15] := by
      grind
    simp [hmem, eq_comm]
  all_goals rename_i h; simp [h]

/-- The Opcodes and Op2 of type R that name no instruction. -/
def UnassignedR (op2 opcode : Nat) : Prop :=
  op2 = 0 ∧ opcode ∈ [7, 8, 9, 12, 13, 14, 15] ∨ op2 = 1 ∧ opcode ∉ [0, 1] ∨ op2 = 2 ∧ opcode ∉ [0, 1, 4, 5] ∨
    op2 = 3 ∧ opcode ∉ [10, 11]

/-- The Opcodes and Op2 of type R that name an instruction whose fixed field, one of the three registers, is not r0. -/
def FixedNotR0 (op2 opcode : Nat) (rst rsA rsB : Reg) : Prop :=
  op2 = 1 ∧ opcode ∈ [0, 1] ∧ rsB ≠ .r0 ∨ op2 = 2 ∧ opcode ∈ [0, 4] ∧ rsA ≠ .r0 ∨
    op2 = 2 ∧ opcode ∈ [1, 5] ∧ rst ≠ .r0 ∨ op2 = 3 ∧ opcode ∈ [10, 11] ∧ rst ≠ .r0 ∨
    op2 = 0 ∧ opcode ∈ [10, 11] ∧ rst ≠ .r0

/-- Type R is refused for an Opcode and Op2 without an instruction, or for the fixed field of the one they name. -/
theorem decodeTypeR_error_iff :
    decodeTypeR w = .error e ↔
      e = .unassigned w ∧ UnassignedR (op2Field w).toNat (opcodeField w).toNat ∨
      e = .fixedFieldNotZero w ∧
        FixedNotR0 (op2Field w).toNat (opcodeField w).toNat (rstField w) (rsAField w) (rsBField w) := by
  have hop := (opcodeField w).isLt
  have hop2 := (op2Field w).isLt
  unfold decodeTypeR
  split
  case h_18 =>
    have hun : UnassignedR (op2Field w).toNat (opcodeField w).toNat := by
      grind [UnassignedR]
    have hfixed : ¬ FixedNotR0 (op2Field w).toNat (opcodeField w).toNat (rstField w) (rsAField w) (rsBField w) := by
      grind [FixedNotR0]
    simp [hun, hfixed, eq_comm]
  all_goals
    rename_i h2 h
    simp [h2, h, UnassignedR, FixedNotR0, admitFixed_error_iff, Instr.WellFormed, Instr.fixedField]

end Reserved

/-- A field holds 000 exactly if it names r0 (R76). -/
theorem eq_r0_iff (r : Reg) : r = .r0 ↔ r.index.toNat = 0 := by cases r <;> decide

/-- Settles O4: the word of HCF apart, which is accepted, bit 11 selects the half of the decoder, and each half says
what it refuses. -/
theorem refusedWordsAreTheReservedOnes : Obligations.RefusedWordsAreTheReservedOnes := by
  intro w opcode imm rst rsA rsB op2
  have hop : (opcodeField w).toNat = opcode := opcodeField_toNat w
  have hop2 : (op2Field w).toNat = op2 := op2Field_toNat w
  have hrst : rstField w = .r0 ↔ rst = 0 := by rw [eq_r0_iff, rstField_index_toNat]
  have hrsA : rsAField w = .r0 ↔ rsA = 0 := by rw [eq_r0_iff, rsAField_index_toNat]
  have hrsB : rsBField w = .r0 ↔ rsB = 0 := by rw [eq_r0_iff, rsBField_index_toNat]
  have himm : immField w = decide (imm = 1) := immField_eq_decide w
  have hbit : imm = 0 ∨ imm = 1 := by omega
  by_cases hhcf : w = 0x0003
  · have hdec : decodeWord w = .ok .hcf := if_pos hhcf
    have hnum : opcode = 0 ∧ op2 = 3 := by subst hhcf; exact ⟨rfl, rfl⟩
    clear_value opcode imm rst rsA rsB op2
    rw [hdec]
    simp [hnum, hhcf]
  · clear_value opcode imm rst rsA rsB op2
    rcases hbit with rfl | rfl
    · rw [decodeWord_typeR himm hhcf]
      simp only [decodeTypeR_error_iff, UnassignedR, FixedNotR0, hop, hop2, ne_eq, hrst, hrsA, hrsB, hhcf]
      simp
    · rw [decodeWord_typeI himm]
      simp [decodeTypeI_error_iff, hop]

/-- Settles O7: the words are closed terms, which the decoder evaluates. -/
theorem writtenOutWordsDecode : Obligations.WrittenOutWordsDecode :=
  ⟨rfl, rfl, rfl, rfl, rfl, rfl, rfl, rfl, rfl, rfl, rfl, rfl, rfl, rfl⟩

end Sys2Proof.Proofs.Decoder
end

section
/-! PROOFS. The rest of the computation class, the shift class and ldi (40_computation.md, 41_shift.md). -/

namespace Sys2Proof.Proofs.Arithmetic

open Sys2Proof Sys2Proof.Machine Sys2Proof.Proofs.Encoding Sys2Proof.Proofs.Computation

/-! ### The instructions as register writes -/

section Meanings

variable {x : Xlen} (m : Mach x) (d a b : Reg) (imm : BitVec 8)

theorem exec_sltI :
    exec (.sltI d imm) ⟨x, m⟩ = .next ⟨x, m.setReg d (boolWord x (sltCondition (m.reg d) (sextImm x imm)))⟩ := rfl
theorem exec_sltuI :
    exec (.sltuI d imm) ⟨x, m⟩ = .next ⟨x, m.setReg d (boolWord x (sltuCondition (m.reg d) (sextImm x imm)))⟩ := rfl
theorem exec_subR : exec (.subR d a b) ⟨x, m⟩ = .next ⟨x, m.setReg d (m.reg a - m.reg b)⟩ := rfl
theorem exec_lsr : exec (.lsr d a .r0) ⟨x, m⟩ = .next ⟨x, m.setReg d (m.reg a >>> 1)⟩ := rfl
theorem exec_asr : exec (.asr d a .r0) ⟨x, m⟩ = .next ⟨x, m.setReg d ((m.reg a).sshiftRight 1)⟩ := rfl

/-- The fixed field of a well-formed instruction is r0 (30_encoding.md R76). -/
theorem fixedField_eq_r0 {i : Instr} {r : Reg} (hwf : i.WellFormed) (h : i.fixedField = some r) : r = .r0 := by
  rcases hwf with hnone | hr0
  · rw [h] at hnone; cases hnone
  · exact Option.some.inj (h.symm.trans hr0)

/-- A term with another register than r0 in its fixed field is reserved, whatever the machine holds
(30_encoding.md R83). -/
theorem exec_illFormed {i : Instr} (h : ¬ i.WellFormed) (s : State) :
    exec i s = .fault (.reservedInstruction (encode i)) := by
  cases i with
  | lsr | asr | ldb | stb | ldw | stw | bezR | bezRAlias | bnzR | bnzRAlias =>
    simp only [exec, execLsr, execAsr, State.shift, execLdb, execStb, execLdw, execStw, execBezR, execBezRAlias,
      execBnzR, execBnzRAlias, State.perform, withFixedField_error h]
  | _ => exact absurd (.inl rfl) h

end Meanings

/-! ### The values written -/

section Values

variable {x : Xlen} (u v : Word x) (imm : BitVec 8)

/-- The sign-extended immediate as an unsigned number: the negative ones stand at the top of the word (R119). -/
theorem sextImm_toNat :
    (sextImm x imm).toNat = if imm.toNat < 128 then imm.toNat else 2 ^ x.bits - 256 + imm.toNat := by
  have himm : imm.toNat < 256 := imm.isLt
  rw [sextImm, BitVec.toNat_signExtend, BitVec.toNat_setWidth_of_le (eight_le_bits x), BitVec.msb_eq_decide]
  simp only [decide_eq_true_eq]
  split
  case isTrue hneg => rw [if_neg (by omega)]; cases x <;> simp only [Xlen.bits] <;> omega
  case isFalse hnonneg => rw [if_pos (by omega), Nat.add_zero]

/-- The sign of the difference, corrected by the overflow, is the signed comparison (R127). -/
theorem sltCondition_eq_qualifiers : sltCondition u v = (aluNegative u v != aluOverflow u v) := by
  have hu := u.isLt
  have hv := v.isLt
  rw [sltCondition, BitVec.slt_eq_decide, BitVec.toInt_eq_toNat_cond, BitVec.toInt_eq_toNat_cond, aluNegative,
    aluOverflow, aluDifference, BitVec.msb_eq_decide, BitVec.msb_eq_decide, BitVec.msb_eq_decide, BitVec.toNat_sub]
  cases x <;> simp only [Xlen.bits] at hu hv ⊢ <;> grind

/-- The borrow out of the subtraction is the unsigned comparison (R128). -/
theorem sltuCondition_eq_borrow : sltuCondition u v = aluBorrow u v := by
  have hu := u.isLt
  have hv := v.isLt
  rw [sltuCondition, BitVec.ult_eq_decide, aluBorrow, BitVec.msb_eq_decide, BitVec.toNat_sub,
    BitVec.toNat_setWidth_of_le (Nat.le_succ _), BitVec.toNat_setWidth_of_le (Nat.le_succ _)]
  cases x <;> simp only [Xlen.bits, decide_eq_decide] at hu hv ⊢ <;> omega

/-- An arithmetic shift by one is the floor of the signed half (41_shift.md R141). -/
theorem sshiftRight_one_toInt : (v.sshiftRight 1).toInt = v.toInt.fdiv 2 := by
  rw [BitVec.toInt_sshiftRight, Int.shiftRight_eq_div_pow, Int.fdiv_eq_ediv_of_nonneg _ (by decide)]
  rfl

end Values

/-! ### The statements -/

/-- Settles O13: both forms compare x[Rst] with the extended immediate, as signed and as unsigned numbers. -/
theorem immediateComparesUseRst : Obligations.ImmediateComparesUseRst := by
  intro x m d imm
  refine ⟨completes_of_exec_setReg (.inl rfl) (exec_sltI m d imm) ?_,
    completes_of_exec_setReg (.inl rfl) (exec_sltuI m d imm) ?_⟩
  · rw [setReg_reg_same, boolWord_sltCondition_toNat, sextImm_toInt]
  · rw [setReg_reg_same, boolWord_sltuCondition_toNat, sextImm_toNat]

/-- Settles O15. -/
theorem subRegisterWrapsModulo : Obligations.SubRegisterWrapsModulo := by
  intro x m d a b
  refine completes_of_exec_setReg (.inl rfl) (exec_subR m d a b) ?_
  rw [setReg_reg_same, toNat_sub_eq_toInt, toNat_eq_toInt_emod (m.reg b), Int.sub_emod_emod]

/-- Settles O19. -/
theorem lsrHalvesUnsigned : Obligations.LsrHalvesUnsigned := by
  intro x m d a
  have hcompletes := completes_of_exec_setReg (Post := fun m' => (m'.reg d).toNat = (m.reg a).toNat / 2) (.inr rfl)
    (exec_lsr m d a) (by rw [setReg_reg_same, BitVec.toNat_ushiftRight, Nat.shiftRight_eq_div_pow,
      Nat.pow_one])
  exact ⟨hcompletes.1, hcompletes.2, fun b hb => exec_illFormed (fun hwf => hb (fixedField_eq_r0 hwf rfl)) _⟩

/-- Settles O20. -/
theorem asrHalvesSigned : Obligations.AsrHalvesSigned := by
  intro x m d a
  have hcompletes := completes_of_exec_setReg (Post := fun m' => (m'.reg d).toInt = (m.reg a).toInt.fdiv 2) (.inr rfl)
    (exec_asr m d a) (by rw [setReg_reg_same, sshiftRight_one_toInt])
  exact ⟨hcompletes.1, hcompletes.2, fun b hb => exec_illFormed (fun hwf => hb (fixedField_eq_r0 hwf rfl)) _⟩

/-- Settles O39: the conditions are the qualifiers, for every pair of operands. -/
theorem comparisonsAreTheAluQualifiers : Obligations.ComparisonsAreTheAluQualifiers := by
  intro x m d a b
  rw [← sltCondition_eq_qualifiers, ← sltuCondition_eq_borrow]
  exact ⟨exec_sltR m d a b, exec_sltuR m d a b⟩

/-! ### ldi (45_pseudo_operations.md section 2) -/

/-- Two LDC shift a 16-bit constant in, byte by byte, and push the old content out. -/
theorem ldc_twice (v c : BitVec 16) :
    ((((v <<< 8) + zextImm .x16 (c.extractLsb' 8 8)) <<< 8) + zextImm .x16 (c.extractLsb' 0 8) : BitVec 16) = c := by
  apply BitVec.eq_of_getLsbD_eq
  intro k hk
  rw [ldcValue_getLsbD (x := .x16) _ _ hk]
  split
  case isTrue hlow => simp [hlow]
  case isFalse hhigh =>
    rw [ldcValue_getLsbD (x := .x16) _ _ (by omega : k - 8 < 16), if_pos (by omega)]
    simp [show k - 8 < 8 by omega, show 8 + (k - 8) = k by omega]

/-- What changes no more than one register, twice, changes no more than that register. -/
theorem onlyReg_trans {x : Xlen} {d : Reg} {m m1 m2 : Mach x} (h1 : m.OnlyReg d m1) (h2 : m1.OnlyReg d m2) :
    m.OnlyReg d m2 := by
  obtain ⟨hregs, hpc, hmem, ⟨ho, hc, hcr, hi, hir⟩, hstatus, hcycles⟩ := h1
  obtain ⟨hregs', hpc', hmem', ⟨ho', hc', hcr', hi', hir'⟩, hstatus', hcycles'⟩ := h2
  exact ⟨fun r hr => (hregs' r hr).trans (hregs r hr), hpc'.trans hpc, fun a => (hmem' a).trans (hmem a),
    ⟨ho'.trans ho, hc'.trans hc, hcr'.trans hcr, hi'.trans hi, hir'.trans hir⟩, hstatus'.trans hstatus,
    hcycles'.trans hcycles⟩

/-- Settles O57: the two instructions are those of the definition, the second shifting what the first wrote. -/
theorem ldiLoadsSixteenBits : Obligations.LdiLoadsSixteenBits := by
  intro m r c
  refine ⟨_, _, c.extractLsb' 8 8, c.extractLsb' 0 8, fun _ _ => rfl, exec_ldc m r _, exec_ldc _ r _, ?_,
    onlyReg_trans (setReg_onlyReg m r _) (setReg_onlyReg _ r _)⟩
  rw [setReg_reg_same, setReg_reg_same, ldc_twice]

end Sys2Proof.Proofs.Arithmetic
end

section
/-! PROOFS. Memory and the load and store class (20_memory.md, 42_load_store.md). -/

namespace Sys2Proof.Proofs.LoadStore

open Sys2Proof Sys2Proof.Machine Sys2Proof.Proofs.Encoding Sys2Proof.Proofs.Computation

/-! ### The bytes of a value (20_memory.md R43) -/

/-- Byte k of a value of n bytes is the run of eight bits that splitBE and joinBE give it. -/
theorem byteOf_toNat {w : Nat} (n k : Nat) (v : BitVec w) :
    byteOf n k v.toNat = (v.extractLsb' (8 * (n - 1 - k)) 8).toNat := by
  rw [byteOf, BitVec.extractLsb'_toNat, Nat.shiftRight_eq_div_pow, Nat.pow_mul]

/-- The low byte of a value, as STB stores it (42_load_store.md R151). -/
theorem low_byte_toNat {w : Nat} (v : BitVec w) : (v.extractLsb' 0 8).toNat = v.toNat % 256 := by
  rw [BitVec.extractLsb'_toNat, Nat.shiftRight_zero]

/-- The low byte of a byte extended to a register is that byte. -/
theorem signExtend_low_byte (x : Xlen) (c : Byte) : (c.signExtend x.bits).toNat % 256 = c.toNat := by
  have hc : c.toNat < 256 := c.isLt
  rw [BitVec.toNat_signExtend, BitVec.toNat_setWidth_of_le (eight_le_bits x)]
  cases x <;> simp only [Xlen.bits] <;> split <;> omega

/-- Two values of n bytes with the same bytes are the same value. -/
theorem eq_of_bytes {w n : Nat} {u v : BitVec w} (hw : w ≤ 8 * n)
    (h : ∀ k, k < n → u.extractLsb' (8 * (n - 1 - k)) 8 = v.extractLsb' (8 * (n - 1 - k)) 8) : u = v := by
  apply BitVec.eq_of_getLsbD_eq
  intro j hj
  have hbit := congrArg (fun b => b.getLsbD (j % 8)) (h (n - 1 - j / 8) (by omega))
  simpa [show j % 8 < 8 by omega, show 8 * (n - 1 - (n - 1 - j / 8)) + j % 8 = j by omega] using hbit

/-- Joining one byte more shifts the others up. -/
theorem joinBE_concat (w : Nat) (bs : List Byte) (b : Byte) :
    joinBE w (bs ++ [b]) = (joinBE w bs <<< 8) ||| b.setWidth w := by
  simp [joinBE, List.foldl_append]

/-- The byte joined last is the lowest. -/
theorem joinBE_concat_extract_zero {w : Nat} (hw : 8 ≤ w) (bs : List Byte) (b : Byte) :
    (joinBE w (bs ++ [b])).extractLsb' 0 8 = b := by
  apply BitVec.eq_of_getLsbD_eq
  intro j hj
  rw [joinBE_concat, BitVec.getLsbD_extractLsb', BitVec.getLsbD_or, BitVec.getLsbD_shiftLeft, BitVec.getLsbD_setWidth]
  simp [hj, show j < w by omega]

/-- The bytes joined before it stand one place higher than without it. -/
theorem joinBE_concat_extract_succ {w p : Nat} (hw : 8 * (p + 2) ≤ w) (bs : List Byte) (b : Byte) :
    (joinBE w (bs ++ [b])).extractLsb' (8 * (p + 1)) 8 = (joinBE w bs).extractLsb' (8 * p) 8 := by
  apply BitVec.eq_of_getLsbD_eq
  intro j hj
  rw [joinBE_concat, BitVec.getLsbD_extractLsb', BitVec.getLsbD_or, BitVec.getLsbD_shiftLeft, BitVec.getLsbD_setWidth,
    BitVec.getLsbD_extractLsb', BitVec.getLsbD_of_ge b _ (by omega), show 8 * (p + 1) + j - 8 = 8 * p + j by omega]
  simp [show 8 * (p + 1) + j < w by omega, show ¬ 8 * (p + 1) + j < 8 by omega]

/-- The bytes of a joined value, counted from the lowest. -/
theorem joinBE_reverse_extract {w : Nat} (cs : List Byte) (hw : 8 * cs.length ≤ w) (p : Nat) (hp : p < cs.length) :
    (joinBE w cs.reverse).extractLsb' (8 * p) 8 = cs[p] := by
  induction cs generalizing p with
  | nil => cases hp
  | cons c cs ih =>
    rw [List.length_cons] at hw hp
    rw [List.reverse_cons]
    cases p with
    | zero => exact joinBE_concat_extract_zero (by omega) _ c
    | succ p =>
      rw [joinBE_concat_extract_succ (by omega), ih (by omega) p (by omega)]
      rfl

/-- The bytes of a joined value are the bytes that were joined, where all of them fit it. -/
theorem joinBE_extract {w : Nat} (bs : List Byte) (hw : 8 * bs.length ≤ w) (k : Nat) (hk : k < bs.length) :
    (joinBE w bs).extractLsb' (8 * (bs.length - 1 - k)) 8 = bs[k] := by
  have hbyte := joinBE_reverse_extract (w := w) bs.reverse (by rwa [List.length_reverse]) (bs.length - 1 - k)
    (by rw [List.length_reverse]; omega)
  rw [List.reverse_reverse] at hbyte
  rw [hbyte, List.getElem_reverse]
  congr 1
  omega

theorem bytesAt_getElem {x : Xlen} (m : Mach x) (addr n k : Nat) (hk : k < n) :
    (m.bytesAt addr n)[k]'((bytesAt_length m addr n).symm ▸ hk) = m.byteAt (addr + k) := by
  induction n generalizing addr k with
  | zero => cases hk
  | succ n ih =>
    cases k with
    | zero => rfl
    | succ k =>
      simp only [Mach.bytesAt, List.getElem_cons_succ]
      rw [ih (addr + 1) k (by omega), Nat.add_assoc, Nat.add_comm 1 k]

/-! ### The memory primitives -/

section Primitives

variable {x : Xlen} (m : Mach x) (addr : Nat)

/-- Byte k of what is read is the k-th byte from the address. -/
theorem memRead_extract {n k w : Nat} (hw : 8 * n ≤ w) (hk : k < n) :
    (m.memRead addr n w).extractLsb' (8 * (n - 1 - k)) 8 = m.byteAt (addr + k) := by
  have hlen : (m.bytesAt addr n).length = n := bytesAt_length m addr n
  have hbyte := joinBE_extract (w := w) (m.bytesAt addr n) (by omega) k (by omega)
  rw [bytesAt_getElem m addr n k hk, hlen] at hbyte
  exact hbyte

/-- What is read where a value was stored is that value. -/
theorem memRead_memWrite {n w : Nat} (hw : w = 8 * n) (v : BitVec w) : (m.memWrite addr n v).memRead addr n w = v := by
  refine eq_of_bytes (n := n) (by omega) fun k hk => ?_
  rw [memRead_extract _ _ (by omega) hk, memWrite_byteAt_inside m addr n k v hk]

/-- A single byte read is that byte. -/
theorem memRead_byte : m.memRead addr 1 8 = m.byteAt addr := by
  simp [Mach.memRead, Mach.bytesAt, joinBE]

/-- A single byte stored reads back. -/
theorem memWrite_byte (c : Byte) : (m.memWrite addr 1 c).byteAt addr = c := by
  have hbyte := memWrite_byteAt_inside m addr 1 0 c Nat.one_pos
  rw [Nat.add_zero] at hbyte
  rw [hbyte]
  exact BitVec.extractLsb'_eq_self

/-- A store changes nothing but its bytes. -/
theorem memWrite_onlyBytes {w : Nat} (n : Nat) (v : BitVec w) : m.OnlyBytes addr n (m.memWrite addr n v) :=
  ⟨fun _ => rfl, rfl, fun a ha => memWrite_byteAt_outside m addr n a v ha, ⟨rfl, rfl, rfl, rfl, rfl⟩, rfl, rfl⟩

end Primitives

/-- Settles O34: byte by byte, and so as a whole. -/
theorem memoryPrimitivesAreBigEndian : Obligations.MemoryPrimitivesAreBigEndian := by
  intro x m addr n v
  refine ⟨fun k hk => ?_, fun a ha => memWrite_byteAt_outside m addr n a v ha, fun k hk => ?_,
    memRead_memWrite m addr rfl v⟩
  · rw [byteOf_toNat, memWrite_byteAt_inside m addr n k v hk]
  · rw [byteOf_toNat, memRead_extract m addr (Nat.le_refl _) hk]

/-! ### The address map (20_memory.md section 5) -/

/-- A register holds exactly the bytes of a word (00_scope.md R10). -/
theorem eight_mul_wbytes (x : Xlen) : 8 * x.wbytes = x.bits := by cases x <;> rfl

theorem wbytes_pos (x : Xlen) : 0 < x.wbytes := by cases x <;> decide

/-- An aligned word that begins in memory lies in memory: MEM_SIZE is a multiple of the word size. -/
theorem word_in_memory {x : Xlen} {addr : Nat} (halign : addr % x.wbytes = 0) (hmem : addr < Config.memSize x) :
    addr + x.wbytes ≤ Config.memSize x := by
  cases x <;> simp only [Xlen.wbytes, Xlen.bits, Config.memSize] at * <;> omega

/-- The ports stand outside memory at aligned addresses (20_memory.md R49). -/
theorem portAddr_aligned_outside (x : Xlen) (p : Port) :
    Config.portAddr x p % x.wbytes = 0 ∧ Config.memSize x ≤ Config.portAddr x p := by
  cases x <;> cases p <;> decide

/-- Each port is found at its own address and nowhere else. -/
theorem portAt_eq_some_iff {x : Xlen} {addr : Nat} {p : Port} :
    portAt x addr = some p ↔ addr = Config.portAddr x p := by
  constructor
  · intro h
    unfold portAt at h
    split at h
    case isTrue haddr => cases h; exact haddr
    split at h
    case isTrue haddr => cases h; exact haddr
    split at h
    case isTrue haddr => cases h; exact haddr
    split at h
    case isTrue haddr => cases h; exact haddr
    cases h
  · rintro rfl
    cases x <;> cases p <;> rfl

/-- Settles O38: each value is a constant of the platform. -/
theorem platformAddressMap : Obligations.PlatformAddressMap :=
  ⟨⟨rfl, rfl, rfl⟩, rfl, rfl, rfl⟩

/-! ### The data accesses, by where the address lies (42_load_store.md R155) -/

section Accesses

variable {x : Xlen} {m : Mach x} {ea : Word x} (v : Word x) (b : Byte)

theorem loadByte_in_memory (hmem : ea.toNat < Config.memSize x) : m.loadByte ea = .ok (m.byteAt ea.toNat) := by
  rw [Mach.loadByte, inMemory, if_pos (decide_eq_true (Nat.succ_le_of_lt hmem)), memRead_byte]

theorem loadByte_outside (hout : Config.memSize x ≤ ea.toNat) : m.loadByte ea = .error (.accessFault ea.toNat) := by
  rw [Mach.loadByte, inMemory, if_neg (by rw [decide_eq_true_eq]; omega), raise]

theorem storeByte_in_memory (hmem : ea.toNat < Config.memSize x) :
    m.storeByte ea b = .ok (m.memWrite ea.toNat 1 b) := by
  rw [Mach.storeByte, inMemory, if_pos (decide_eq_true (Nat.succ_le_of_lt hmem))]

theorem storeByte_outside (hout : Config.memSize x ≤ ea.toNat) : m.storeByte ea b = .error (.accessFault ea.toNat) := by
  rw [Mach.storeByte, inMemory, if_neg (by rw [decide_eq_true_eq]; omega), raise]

theorem loadWord_misaligned (h : ea.toNat % x.wbytes ≠ 0) : m.loadWord ea = .error (.misalignedData ea.toNat) :=
  if_pos h

theorem storeWord_misaligned (h : ea.toNat % x.wbytes ≠ 0) : m.storeWord ea v = .error (.misalignedData ea.toNat) :=
  if_pos h

theorem loadWord_in_memory (halign : ea.toNat % x.wbytes = 0) (hmem : ea.toNat < Config.memSize x) :
    m.loadWord ea = .ok (m.memRead ea.toNat x.wbytes x.bits, m) := by
  rw [Mach.loadWord, if_neg (not_not_intro halign), inMemory, if_pos (decide_eq_true (word_in_memory halign hmem))]

theorem storeWord_in_memory (halign : ea.toNat % x.wbytes = 0) (hmem : ea.toNat < Config.memSize x) :
    m.storeWord ea v = .ok (m.memWrite ea.toNat x.wbytes v) := by
  rw [Mach.storeWord, if_neg (not_not_intro halign), inMemory, if_pos (decide_eq_true (word_in_memory halign hmem))]

/-- An address outside memory is not that of a word in memory. -/
theorem not_inMemory (hout : Config.memSize x ≤ ea.toNat) : inMemory x ea.toNat x.wbytes = false := by
  have hpos := wbytes_pos x
  exact decide_eq_false (by omega)

theorem loadWord_port {p : Port} (h : ea.toNat = Config.portAddr x p) : m.loadWord ea = m.loadPort ea.toNat p := by
  obtain ⟨halign, hout⟩ := portAddr_aligned_outside x p
  rw [← h] at halign hout
  rw [Mach.loadWord, if_neg (not_not_intro halign), not_inMemory hout, portAt_eq_some_iff.mpr h]
  rfl

theorem storeWord_port {p : Port} (h : ea.toNat = Config.portAddr x p) :
    m.storeWord ea v = m.storePort ea.toNat v p := by
  obtain ⟨halign, hout⟩ := portAddr_aligned_outside x p
  rw [← h] at halign hout
  rw [Mach.storeWord, if_neg (not_not_intro halign), not_inMemory hout, portAt_eq_some_iff.mpr h]
  rfl

/-- No port stands at an address that is none of the four. -/
theorem portAt_eq_none {addr : Nat} (h : ∀ p, addr ≠ Config.portAddr x p) : portAt x addr = none := by
  cases hp : portAt x addr with
  | none => rfl
  | some p => exact absurd (portAt_eq_some_iff.mp hp) (h p)

theorem loadWord_unmapped (halign : ea.toNat % x.wbytes = 0) (hout : Config.memSize x ≤ ea.toNat)
    (h : ∀ p, ea.toNat ≠ Config.portAddr x p) : m.loadWord ea = .error (.accessFault ea.toNat) := by
  rw [Mach.loadWord, if_neg (not_not_intro halign), not_inMemory hout, portAt_eq_none h]
  rfl

theorem storeWord_unmapped (halign : ea.toNat % x.wbytes = 0) (hout : Config.memSize x ≤ ea.toNat)
    (h : ∀ p, ea.toNat ≠ Config.portAddr x p) : m.storeWord ea v = .error (.accessFault ea.toNat) := by
  rw [Mach.storeWord, if_neg (not_not_intro halign), not_inMemory hout, portAt_eq_none h]
  rfl

/-- Where the address of a word access can lie. -/
theorem word_address_cases (x : Xlen) (addr : Nat) :
    addr % x.wbytes ≠ 0 ∨ (addr % x.wbytes = 0 ∧ addr < Config.memSize x) ∨ (∃ p, addr = Config.portAddr x p) ∨
      (addr % x.wbytes = 0 ∧ Config.memSize x ≤ addr ∧ ∀ p, addr ≠ Config.portAddr x p) := by
  by_cases halign : addr % x.wbytes = 0
  · by_cases hmem : addr < Config.memSize x
    · exact .inr (.inl ⟨halign, hmem⟩)
    · by_cases hport : ∃ p, addr = Config.portAddr x p
      · exact .inr (.inr (.inl hport))
      · exact .inr (.inr (.inr ⟨halign, Nat.le_of_not_lt hmem, fun p h => hport ⟨p, h⟩⟩))
  · exact .inl halign

end Accesses

/-! ### The instructions, by the outcome of their access -/

section Meanings

variable {x : Xlen} {m m1 : Mach x} {d a b : Reg} {v : Word x} {c : Byte} {f : Fault}

theorem exec_ldb_ok (h : m.loadByte (m.reg b) = .ok c) :
    exec (.ldb d .r0 b) ⟨x, m⟩ = .next ⟨x, m.setReg d (c.signExtend x.bits)⟩ := by
  simp only [exec, execLdb, Mach.effectiveAddr, perform_mk, withFixedField_ok (i := .ldb d .r0 b) (.inr rfl), h]

theorem exec_ldb_error (h : m.loadByte (m.reg b) = .error f) : exec (.ldb d .r0 b) ⟨x, m⟩ = .fault f := by
  simp only [exec, execLdb, Mach.effectiveAddr, perform_mk, withFixedField_ok (i := .ldb d .r0 b) (.inr rfl), h]

theorem exec_stb_ok (h : m.storeByte (m.reg b) ((m.reg a).extractLsb' 0 8) = .ok m1) :
    exec (.stb .r0 a b) ⟨x, m⟩ = .next ⟨x, m1⟩ := by
  simp only [exec, execStb, Mach.effectiveAddr, perform_mk, withFixedField_ok (i := .stb .r0 a b) (.inr rfl), h]

theorem exec_stb_error (h : m.storeByte (m.reg b) ((m.reg a).extractLsb' 0 8) = .error f) :
    exec (.stb .r0 a b) ⟨x, m⟩ = .fault f := by
  simp only [exec, execStb, Mach.effectiveAddr, perform_mk, withFixedField_ok (i := .stb .r0 a b) (.inr rfl), h]

theorem exec_ldw_ok (h : m.loadWord (m.reg b) = .ok (v, m1)) :
    exec (.ldw d .r0 b) ⟨x, m⟩ = .next ⟨x, m1.setReg d v⟩ := by
  simp only [exec, execLdw, Mach.effectiveAddr, perform_mk, withFixedField_ok (i := .ldw d .r0 b) (.inr rfl), h]

theorem exec_ldw_error (h : m.loadWord (m.reg b) = .error f) : exec (.ldw d .r0 b) ⟨x, m⟩ = .fault f := by
  simp only [exec, execLdw, Mach.effectiveAddr, perform_mk, withFixedField_ok (i := .ldw d .r0 b) (.inr rfl), h]

theorem exec_stw_ok (h : m.storeWord (m.reg b) (m.reg a) = .ok m1) : exec (.stw .r0 a b) ⟨x, m⟩ = .next ⟨x, m1⟩ := by
  simp only [exec, execStw, Mach.effectiveAddr, perform_mk, withFixedField_ok (i := .stw .r0 a b) (.inr rfl), h]

theorem exec_stw_error (h : m.storeWord (m.reg b) (m.reg a) = .error f) : exec (.stw .r0 a b) ⟨x, m⟩ = .fault f := by
  simp only [exec, execStw, Mach.effectiveAddr, perform_mk, withFixedField_ok (i := .stw .r0 a b) (.inr rfl), h]

end Meanings

/-! ### The statements -/

/-- Settles O21: the access is inside memory, so the byte there is loaded. -/
theorem ldbLoadsSignedByte : Obligations.LdbLoadsSignedByte := by
  intro x m d b
  refine ⟨decodeWord_encode (i := .ldb d .r0 b) (.inr rfl), fun hmem => ?_⟩
  refine ⟨_, exec_ldb_ok (loadByte_in_memory hmem), setReg_onlyReg m d _, ?_⟩
  rw [setReg_reg_same, BitVec.toInt_signExtend_of_le (eight_le_bits x)]

/-- Settles O22. -/
theorem stbStoresLowByte : Obligations.StbStoresLowByte := by
  intro x m a b
  refine ⟨decodeWord_encode (i := .stb .r0 a b) (.inr rfl), fun hmem => ?_⟩
  refine ⟨_, exec_stb_ok (storeByte_in_memory _ hmem), memWrite_onlyBytes m _ 1 _, ?_⟩
  rw [memWrite_byte, low_byte_toNat]

/-- Settles O23: the access is aligned and inside memory, so the word there is loaded. -/
theorem ldwLoadsBigEndianWord : Obligations.LdwLoadsBigEndianWord := by
  intro x m d b
  refine ⟨decodeWord_encode (i := .ldw d .r0 b) (.inr rfl), fun halign hmem => ?_⟩
  refine ⟨_, exec_ldw_ok (loadWord_in_memory halign hmem), setReg_onlyReg m d _, fun k hk => ?_⟩
  rw [setReg_reg_same, byteOf_toNat, memRead_extract m _ (Nat.le_of_eq (eight_mul_wbytes x)) hk]

/-- Settles O24. -/
theorem stwStoresBigEndianWord : Obligations.StwStoresBigEndianWord := by
  intro x m a b
  refine ⟨decodeWord_encode (i := .stw .r0 a b) (.inr rfl), fun halign hmem => ?_⟩
  refine ⟨_, exec_stw_ok (storeWord_in_memory _ halign hmem), memWrite_onlyBytes m _ _ _, fun k hk => ?_⟩
  rw [byteOf_toNat, memWrite_byteAt_inside m _ _ k _ hk]

/-- Settles O25: each input port gives its next value, which is the first waiting one where there is one. -/
theorem ldwTakesInput : Obligations.LdwTakesInput := by
  intro x m d b
  refine ⟨fun hport => ?_, fun hport => ?_⟩
  · refine ⟨_, exec_ldw_ok (loadWord_port hport), fun r hr => setReg_reg_other _ d r _ hr, rfl, fun _ => rfl,
      ⟨rfl, rfl⟩, rfl, rfl, rfl, rfl, rfl, ?_, fun c rest hc => ?_⟩
    · rw [setReg_reg_same, BitVec.toNat_setWidth_of_le (eight_le_bits x)]
      exact m.nextChar.isLt
    · rw [setReg_reg_same, BitVec.toNat_setWidth_of_le (eight_le_bits x), Mach.nextChar, hc, List.headD_cons]
  · refine ⟨_, exec_ldw_ok (loadWord_port hport), fun r hr => setReg_reg_other _ d r _ hr, rfl, fun _ => rfl,
      ⟨rfl, rfl⟩, rfl, rfl, rfl, rfl, rfl, fun n rest hn => ?_⟩
    rw [setReg_reg_same, Mach.nextInt, hn, List.headD_cons, toNat_eq_toInt_emod, BitVec.toInt_ofInt, bmod_emod_two_pow]

/-- Settles O26. -/
theorem stwEmitsOutput : Obligations.StwEmitsOutput := by
  intro x m a b
  exact ⟨fun hport => ⟨_, exec_stw_ok (storeWord_port _ hport), fun _ => rfl, rfl, fun _ => rfl, ⟨rfl, rfl⟩, rfl, rfl,
      rfl, rfl, rfl⟩,
    fun hport => ⟨_, exec_stw_ok (storeWord_port _ hport), fun _ => rfl, rfl, fun _ => rfl, ⟨rfl, rfl⟩, rfl, rfl, rfl,
      rfl, rfl⟩⟩

/-- A completed word store at an address of memory was aligned and wrote the word. -/
theorem exec_stw_in_memory {x : Xlen} {m m1 : Mach x} {a b : Reg} (h : exec (.stw .r0 a b) ⟨x, m⟩ = .next ⟨x, m1⟩)
    (hmem : (m.reg b).toNat < Config.memSize x) :
    (m.reg b).toNat % x.wbytes = 0 ∧ m1 = m.memWrite (m.reg b).toNat x.wbytes (m.reg a) := by
  by_cases halign : (m.reg b).toNat % x.wbytes = 0
  · rw [exec_stw_ok (storeWord_in_memory _ halign hmem)] at h
    cases h
    exact ⟨halign, rfl⟩
  · rw [exec_stw_error (storeWord_misaligned _ halign)] at h
    cases h

/-- A completed byte store at an address of memory wrote the low byte. -/
theorem exec_stb_in_memory {x : Xlen} {m m1 : Mach x} {a b : Reg} (h : exec (.stb .r0 a b) ⟨x, m⟩ = .next ⟨x, m1⟩)
    (hmem : (m.reg b).toNat < Config.memSize x) : m1 = m.memWrite (m.reg b).toNat 1 ((m.reg a).extractLsb' 0 8) := by
  rw [exec_stb_ok (storeByte_in_memory _ hmem)] at h
  cases h
  rfl

/-- Settles O35: the store leaves the registers, so the load reads the very bytes stored. -/
theorem storedWordLoadsBack : Obligations.StoredWordLoadsBack := by
  intro x m m1 a b c d hstore hmem hcb
  obtain ⟨halign, rfl⟩ := exec_stw_in_memory hstore hmem
  rw [← hcb] at halign hmem ⊢
  refine ⟨_, exec_ldw_ok (loadWord_in_memory halign hmem), ?_⟩
  rw [setReg_reg_same, memWrite_reg, memRead_memWrite m _ (eight_mul_wbytes x).symm]

/-- Settles O36: the k-th byte of the word lies in memory with the word; the rest is a read after a write. -/
theorem mixedWidthAccessesAgree : Obligations.MixedWidthAccessesAgree := by
  intro x m m1 a b c d k halign hmem hk hc
  have hend := word_in_memory halign hmem
  have hbyte : (m.reg c).toNat < Config.memSize x := by omega
  refine ⟨fun hstore => ?_, fun hstore => ?_⟩
  · obtain ⟨-, rfl⟩ := exec_stw_in_memory hstore hmem
    refine ⟨_, exec_ldb_ok (loadByte_in_memory hbyte), ?_⟩
    rw [setReg_reg_same, memWrite_reg, hc, memWrite_byteAt_inside m _ _ k _ hk, byteOf_toNat,
      signExtend_low_byte]
  · obtain rfl := exec_stb_in_memory hstore hbyte
    refine ⟨_, exec_ldw_ok (loadWord_in_memory halign hmem), fun j hj => ?_⟩
    rw [setReg_reg_same, byteOf_toNat, memRead_extract _ _ (Nat.le_of_eq (eight_mul_wbytes x)) hj, memWrite_reg, hc]
    split
    case isTrue hjk => rw [hjk, memWrite_byte, low_byte_toNat]
    case isFalse hjk => rw [memWrite_byteAt_outside _ _ _ _ _ (by omega)]

end Sys2Proof.Proofs.LoadStore
end

section
/-! PROOFS. The branch class and HCF (43_branch.md, 45_pseudo_operations.md section 1). -/

namespace Sys2Proof.Proofs.Branch

open Sys2Proof Sys2Proof.Machine Sys2Proof.Proofs.Encoding Sys2Proof.Proofs.Computation Sys2Proof.Proofs.Decoder

/-! ### The instructions as conditional moves of pc -/

section Meanings

variable {x : Xlen} (m : Mach x) (d a b : Reg) (imm : BitVec 8)

theorem exec_bezR : exec (.bezR .r0 a b) ⟨x, m⟩ = .next ⟨x, m.branchIf (m.isZero a) (m.reg b)⟩ := rfl
theorem exec_bezRAlias : exec (.bezRAlias .r0 a b) ⟨x, m⟩ = .next ⟨x, m.branchIf (m.isZero a) (m.reg b)⟩ := rfl
theorem exec_bnzR : exec (.bnzR .r0 a b) ⟨x, m⟩ = .next ⟨x, m.branchIf (!m.isZero a) (m.reg b)⟩ := rfl
theorem exec_bnzRAlias : exec (.bnzRAlias .r0 a b) ⟨x, m⟩ = .next ⟨x, m.branchIf (!m.isZero a) (m.reg b)⟩ := rfl
theorem exec_bezI : exec (.bezI d imm) ⟨x, m⟩ = .next ⟨x, m.branchIf (m.isZero d) (m.relativeTarget imm)⟩ := rfl
theorem exec_bnzI : exec (.bnzI d imm) ⟨x, m⟩ = .next ⟨x, m.branchIf (!m.isZero d) (m.relativeTarget imm)⟩ := rfl
theorem exec_hcf : exec .hcf ⟨x, m⟩ = .next ⟨x, m.setStatus .halted⟩ := rfl

end Meanings

section Conditions

variable {x : Xlen} (m : Mach x) (r : Reg)

theorem isZero_iff : m.isZero r = true ↔ m.reg r = 0 := beq_iff_eq

theorem not_isZero_iff : (!m.isZero r) = true ↔ m.reg r ≠ 0 := by rw [Bool.not_eq_true', ← Bool.not_eq_true, isZero_iff]

/-- A register is zero exactly if its unsigned value is. -/
theorem toNat_eq_zero_iff (v : Word x) : v.toNat = 0 ↔ v = 0 := by
  rw [← BitVec.toNat_inj, BitVec.ofNat_eq_ofNat, BitVec.toNat_ofNat, Nat.zero_mod]

/-- Where a branch leaves pc. -/
theorem branchIf_pc (c : Bool) (t : Word x) : (m.branchIf c t).pc = if c = true then t else m.pc := by cases c <;> rfl

/-- A branch changes nothing but pc (43_branch.md's common text). -/
theorem branchIf_onlyPc (c : Bool) (t : Word x) : m.OnlyPc (m.branchIf c t) := by
  cases c <;> exact ⟨fun _ => rfl, fun _ => rfl, ⟨rfl, rfl, rfl, rfl, rfl⟩, rfl, rfl⟩

/-- The target of a relative branch is pc plus the signed immediate, modulo 2^XLEN (R171, R173). -/
theorem relativeTarget_toNat (imm : BitVec 8) :
    ((m.relativeTarget imm).toNat : Int) = (m.pc.toNat + imm.toInt) % 2 ^ x.bits := by
  rw [Mach.relativeTarget, toNat_add_eq_toInt, sextImm_toInt]

end Conditions

/-! ### The statements -/

/-- Settles O27: both encodings have one meaning. -/
theorem bezRegisterBranchesIfZero : Obligations.BezRegisterBranchesIfZero := by
  intro x m a b i
  refine ⟨decodeWord_encode (i := .bezR .r0 a b) (.inr rfl), decodeWord_encode (i := .bezRAlias .r0 a b) (.inr rfl),
    fun hi => ⟨m.branchIf (m.isZero a) (m.reg b), ?_, branchIf_onlyPc m _ _, ?_⟩⟩
  · rcases hi with rfl | rfl
    · exact exec_bezR m a b
    · exact exec_bezRAlias m a b
  · simp only [branchIf_pc, isZero_iff, toNat_eq_zero_iff]

/-- Settles O28: both encodings have one meaning. -/
theorem bnzRegisterBranchesIfNotZero : Obligations.BnzRegisterBranchesIfNotZero := by
  intro x m a b i
  refine ⟨decodeWord_encode (i := .bnzR .r0 a b) (.inr rfl), decodeWord_encode (i := .bnzRAlias .r0 a b) (.inr rfl),
    fun hi => ⟨m.branchIf (!m.isZero a) (m.reg b), ?_, branchIf_onlyPc m _ _, ?_⟩⟩
  · rcases hi with rfl | rfl
    · exact exec_bnzR m a b
    · exact exec_bnzRAlias m a b
  · simp only [branchIf_pc, not_isZero_iff, toNat_eq_zero_iff, ne_eq, ite_not]

/-- Settles O29. -/
theorem bezRelativeAddsOffset : Obligations.BezRelativeAddsOffset := by
  intro x m d imm
  refine ⟨decodeWord_encode (i := .bezI d imm) (.inl rfl), _, exec_bezI m d imm, branchIf_onlyPc m _ _, ?_⟩
  simp only [branchIf_pc, isZero_iff, toNat_eq_zero_iff]
  split
  · exact relativeTarget_toNat m imm
  · rfl

/-- Settles O30. -/
theorem bnzRelativeAddsOffset : Obligations.BnzRelativeAddsOffset := by
  intro x m d imm
  refine ⟨decodeWord_encode (i := .bnzI d imm) (.inl rfl), _, exec_bnzI m d imm, branchIf_onlyPc m _ _, ?_⟩
  simp only [branchIf_pc, not_isZero_iff, toNat_eq_zero_iff, ne_eq, ite_not]
  split
  · rfl
  · exact relativeTarget_toNat m imm

/-- Settles O31: an accepted word is the encoding of its instruction, and that of HCF is a constant. -/
theorem hcfHaltsTheRun : Obligations.HcfHaltsTheRun := by
  refine ⟨fun w => ⟨fun h => ?_, fun h => if_pos h⟩, fun x m => ?_⟩
  · obtain ⟨-, hword⟩ := reencode_of_decodeWord h
    exact hword.symm
  · exact ⟨_, exec_hcf m, rfl, rfl, rfl, fun _ => rfl, ⟨rfl, rfl, rfl, rfl, rfl⟩, rfl⟩

end Sys2Proof.Proofs.Branch
end

section
/-! PROOFS. What every instruction changes, reads and stops on (10_state.md sections 1 and 2, 60_exceptions.md
section 2). -/

namespace Sys2Proof.Proofs.Frames

open Sys2Proof Sys2Proof.Machine Sys2Proof.Proofs.Computation Sys2Proof.Proofs.Arithmetic Sys2Proof.Proofs.LoadStore
  Sys2Proof.Proofs.Branch

variable {x : Xlen}

/-! ### What an instruction changes -/

/-- Everything an instruction leaves unchanged, the inputs apart: read off the forms that the machine after it can
have. -/
theorem exec_frame {m m' : Mach x} {i : Instr} (h : exec i ⟨x, m⟩ = .next ⟨x, m'⟩) :
    (∀ r, i.dest ≠ some r → m'.reg r = m.reg r) ∧ (i.isStore = false → m.SameMemory m' ∧ m'.output = m.output) ∧
      (i.isBranch = false → m'.pc = m.pc) ∧ m'.cycles = m.cycles ∧ (i ≠ .hcf → m'.status = m.status) := by
  obtain ⟨m1, heq, hcases⟩ := exec_next_cases h
  cases heq
  have hother : ∀ {d r : Reg}, i.dest = some d → i.dest ≠ some r → r ≠ d := by
    rintro d r hd hr rfl
    exact hr hd
  rcases hcases with ⟨d, v, hd, rfl | rfl | rfl⟩ | ⟨hst, hd, a, n, v, -, rfl⟩ | ⟨hst, hd, a, c, -, rfl⟩ |
    ⟨hst, hd, e, rfl⟩ | ⟨hbr, hd, rfl | ⟨t, rfl⟩⟩ | ⟨rfl, rfl⟩
  · exact ⟨fun r hr => setReg_reg_other m d r v (hother hd hr), fun _ => ⟨fun _ => rfl, rfl⟩, fun _ => rfl, rfl,
      fun _ => rfl⟩
  · exact ⟨fun r hr => setReg_reg_other m.takeChar d r v (hother hd hr), fun _ => ⟨fun _ => rfl, rfl⟩, fun _ => rfl,
      rfl, fun _ => rfl⟩
  · exact ⟨fun r hr => setReg_reg_other m.takeInt d r v (hother hd hr), fun _ => ⟨fun _ => rfl, rfl⟩, fun _ => rfl, rfl,
      fun _ => rfl⟩
  · exact ⟨fun _ _ => rfl, fun hns => (nomatch hst.symm.trans hns), fun _ => rfl, rfl, fun _ => rfl⟩
  · exact ⟨fun _ _ => rfl, fun hns => (nomatch hst.symm.trans hns), fun _ => rfl, rfl, fun _ => rfl⟩
  · exact ⟨fun _ _ => rfl, fun hns => (nomatch hst.symm.trans hns), fun _ => rfl, rfl, fun _ => rfl⟩
  · exact ⟨fun _ _ => rfl, fun _ => ⟨fun _ => rfl, rfl⟩, fun _ => rfl, rfl, fun _ => rfl⟩
  · exact ⟨fun _ _ => rfl, fun _ => ⟨fun _ => rfl, rfl⟩, fun hnb => (nomatch hbr.symm.trans hnb), rfl, fun _ => rfl⟩
  · exact ⟨fun _ _ => rfl, fun _ => ⟨fun _ => rfl, rfl⟩, fun _ => rfl, rfl, fun hne => absurd rfl hne⟩

/-- Both inputs are as before. -/
def SameInputs (m m' : Mach x) : Prop :=
  m'.charInput = m.charInput ∧ m'.charsRead = m.charsRead ∧ m'.intInput = m.intInput ∧ m'.intsRead = m.intsRead

/-- A completed instruction had r0 in its fixed field. -/
theorem wellFormed_of_exec_next {i : Instr} {s t : State} (h : exec i s = .next t) : i.WellFormed := by
  by_cases hwf : i.WellFormed
  · exact hwf
  · rw [exec_illFormed hwf] at h
    cases h

/-- Only a word load takes input (60_exceptions.md section 3). -/
theorem exec_sameInputs {m m' : Mach x} {i : Instr} (h : exec i ⟨x, m⟩ = .next ⟨x, m'⟩)
    (hldw : ∀ d b, i ≠ .ldw d .r0 b) : SameInputs m m' := by
  have hwf := wellFormed_of_exec_next h
  cases i with
  | ldw d a b =>
    obtain rfl := fixedField_eq_r0 hwf rfl
    exact absurd rfl (hldw d b)
  | ldb d a b =>
    obtain rfl := fixedField_eq_r0 hwf rfl
    cases hacc : m.loadByte (m.reg b) with
    | ok c => rw [exec_ldb_ok hacc] at h; cases h; exact ⟨rfl, rfl, rfl, rfl⟩
    | error f => rw [exec_ldb_error hacc] at h; cases h
  | stb d a b =>
    obtain rfl := fixedField_eq_r0 hwf rfl
    cases hacc : m.storeByte (m.reg b) ((m.reg a).extractLsb' 0 8) with
    | ok m1 =>
      rw [exec_stb_ok hacc] at h
      cases h
      obtain ⟨-, rfl⟩ := storeByte_ok hacc
      exact ⟨rfl, rfl, rfl, rfl⟩
    | error f => rw [exec_stb_error hacc] at h; cases h
  | stw d a b =>
    obtain rfl := fixedField_eq_r0 hwf rfl
    cases hacc : m.storeWord (m.reg b) (m.reg a) with
    | ok m1 =>
      rw [exec_stw_ok hacc] at h
      cases h
      obtain ⟨-, ⟨-, rfl⟩ | ⟨-, rfl⟩ | ⟨-, rfl⟩⟩ := storeWord_ok hacc <;> exact ⟨rfl, rfl, rfl, rfl⟩
    | error f => rw [exec_stw_error hacc] at h; cases h
  | bezR d a b | bezRAlias d a b | bnzR d a b | bnzRAlias d a b =>
    obtain rfl := fixedField_eq_r0 hwf rfl
    simp only [exec_bezR, exec_bezRAlias, exec_bnzR, exec_bnzRAlias] at h
    cases h
    obtain ⟨-, -, ⟨-, hinputs⟩, -⟩ := branchIf_onlyPc m _ _
    exact hinputs
  | bezI d imm | bnzI d imm =>
    simp only [exec_bezI, exec_bnzI] at h
    cases h
    obtain ⟨-, -, ⟨-, hinputs⟩, -⟩ := branchIf_onlyPc m _ _
    exact hinputs
  | lsr d a b | asr d a b =>
    obtain rfl := fixedField_eq_r0 hwf rfl
    simp only [exec_lsr, exec_asr] at h
    cases h
    exact ⟨rfl, rfl, rfl, rfl⟩
  | _ => cases h; exact ⟨rfl, rfl, rfl, rfl⟩

/-- Settles O40. -/
theorem instructionsChangeOnlyTheirOwn : Obligations.InstructionsChangeOnlyTheirOwn := by
  intro x m m' i h
  obtain ⟨hregs, hmem, hpc, hcycles, hstatus⟩ := exec_frame h
  exact ⟨hregs, hmem, exec_sameInputs h, hpc, hcycles, hstatus⟩

/-! ### What an instruction reads

A machine with another register file and another pc runs the instruction alike, if the file agrees on the source
registers. -/

/-- The machine with another register file and another pc. -/
def withView (m : Mach x) (f : RegFile x) (p : Word x) : Mach x := { m with regs := f, pc := p }

section View

variable {m : Mach x} {f : RegFile x} {p : Word x}

@[simp] theorem withView_byteAt (a : Nat) : (withView m f p).byteAt a = m.byteAt a := rfl

theorem withView_bytesAt (addr n : Nat) : (withView m f p).bytesAt addr n = m.bytesAt addr n := by
  induction n generalizing addr with
  | zero => rfl
  | succ n ih => rw [Mach.bytesAt, Mach.bytesAt, ih, withView_byteAt]

theorem withView_memRead (addr n w : Nat) : (withView m f p).memRead addr n w = m.memRead addr n w := by
  rw [Mach.memRead, withView_bytesAt, Mach.memRead]

/-- A byte load reads memory only. -/
theorem withView_loadByte (ea : Word x) : (withView m f p).loadByte ea = m.loadByte ea := by
  rw [Mach.loadByte, withView_memRead, Mach.loadByte]

/-- A byte store changes memory only. -/
theorem withView_storeByte (ea : Word x) (c : Byte) :
    (withView m f p).storeByte ea c = (m.storeByte ea c).map fun m1 => withView m1 f p := by
  rcases Nat.lt_or_ge ea.toNat (Config.memSize x) with hmem | hout
  · rw [storeByte_in_memory c hmem, storeByte_in_memory c hmem]; rfl
  · rw [storeByte_outside c hout, storeByte_outside c hout]; rfl

/-- A word load reads memory and the inputs and changes the inputs only. -/
theorem withView_loadWord (ea : Word x) :
    (withView m f p).loadWord ea = (m.loadWord ea).map fun r => (r.1, withView r.2 f p) := by
  rcases word_address_cases x ea.toNat with hmis | ⟨halign, hmem⟩ | ⟨q, hport⟩ | ⟨halign, hout, hport⟩
  · rw [loadWord_misaligned hmis, loadWord_misaligned hmis]; rfl
  · rw [loadWord_in_memory halign hmem, loadWord_in_memory halign hmem, withView_memRead]; rfl
  · rw [loadWord_port hport, loadWord_port hport]; cases q <;> rfl
  · rw [loadWord_unmapped halign hout hport, loadWord_unmapped halign hout hport]; rfl

/-- A word store changes memory or the output only. -/
theorem withView_storeWord (ea v : Word x) :
    (withView m f p).storeWord ea v = (m.storeWord ea v).map fun m1 => withView m1 f p := by
  rcases word_address_cases x ea.toNat with hmis | ⟨halign, hmem⟩ | ⟨q, hport⟩ | ⟨halign, hout, hport⟩
  · rw [storeWord_misaligned v hmis, storeWord_misaligned v hmis]; rfl
  · rw [storeWord_in_memory v halign hmem, storeWord_in_memory v halign hmem]; rfl
  · rw [storeWord_port v hport, storeWord_port v hport]; cases q <;> rfl
  · rw [storeWord_unmapped v halign hout hport, storeWord_unmapped v halign hout hport]; rfl

end View

/-- The outcomes of an instruction on a machine and on the machine with the registers f and the pc p: the same fault; or
the same next machine, but that a register which is not the destination is that of f, and pc is p unless a branch moved
it, in which case it agrees with pc on the first machine if p did. -/
inductive SameOutcome (i : Instr) (m : Mach x) (f : RegFile x) (p : Word x) :
    Host.Outcome State Fault Refusal → Host.Outcome State Fault Refusal → Prop where
  | fault (e : Fault) : SameOutcome i m f p (.fault e) (.fault e)
  | next (m' : Mach x) (g : RegFile x) (q : Word x)
      (hregs : ∀ r, g.read r = if i.dest = some r then m'.regs.read r else f.read r)
      (hpc : p = m.pc → q = m'.pc) (hkeep : i.isBranch = false → q = p) :
      SameOutcome i m f p (.next ⟨x, m'⟩) (.next ⟨x, withView m' g q⟩)

section Congruence

variable {i : Instr} {m m1 : Mach x} {f : RegFile x} {p : Word x}

/-- A write of the same value to the destination. -/
theorem SameOutcome.setReg {d : Reg} (v : Word x) (hdest : i.dest = some d) (hpc : m1.pc = m.pc) :
    SameOutcome i m f p (.next ⟨x, m1.setReg d v⟩) (.next ⟨x, (withView m1 f p).setReg d v⟩) := by
  refine .next (m1.setReg d v) (f.write d v) p (fun r => ?_) (fun h => h.trans hpc.symm) fun _ => rfl
  rw [hdest, setReg_regs]
  split
  case isTrue heq => cases heq; rw [RegFile.read_write_same, RegFile.read_write_same]
  case isFalse hne => exact RegFile.read_write_other f d r v fun h => hne (congrArg some h.symm)

/-- An effect on neither registers nor pc. -/
theorem SameOutcome.noReg (hdest : i.dest = none) (hpc : m1.pc = m.pc) :
    SameOutcome i m f p (.next ⟨x, m1⟩) (.next ⟨x, withView m1 f p⟩) :=
  .next m1 f p (fun r => by rw [hdest, if_neg nofun]) (fun h => h.trans hpc.symm) fun _ => rfl

/-- A branch on the same condition, to targets that agree where p does. -/
theorem SameOutcome.branchIf {c : Bool} {t t' : Word x} (hdest : i.dest = none) (hbr : i.isBranch = true)
    (ht : p = m.pc → t' = t) :
    SameOutcome i m f p (.next ⟨x, m.branchIf c t⟩) (.next ⟨x, (withView m f p).branchIf c t'⟩) := by
  have hregs : ∀ r, f.read r = if i.dest = some r then (m.branchIf c t).regs.read r else f.read r := fun r => by
    rw [hdest, if_neg nofun]
  have hkeep : ∀ {q : Word x}, i.isBranch = false → q = p := fun hnb => absurd (hbr.symm.trans hnb) (by decide)
  cases c with
  | true => exact .next (m.setPc t) f t' hregs ht hkeep
  | false => exact .next m f p hregs id hkeep

/-- Every instruction reads only its source registers and, if it is a relative branch, pc: the values it computes, the
addresses it goes to and the conditions it tests are those of its sources. -/
theorem exec_sameOutcome (hsrc : ∀ r, r ∈ i.sources → f.read r = m.regs.read r) :
    SameOutcome i m f p (exec i ⟨x, m⟩) (exec i ⟨x, withView m f p⟩) := by
  by_cases hwf : i.WellFormed
  case neg => rw [exec_illFormed hwf, exec_illFormed hwf]; exact .fault _
  have hreg : ∀ r, r ∈ i.sources → (withView m f p).reg r = m.reg r := hsrc
  cases i with
  | andR d a b | orR d a b | xorR d a b | sltR d a b | sltuR d a b | addR d a b | subR d a b =>
    simp only [exec_andR, exec_orR, exec_xorR, exec_sltR, exec_sltuR, exec_addR, exec_subR,
      hreg a List.mem_cons_self, hreg b (List.mem_cons_of_mem _ List.mem_cons_self)]
    exact .setReg _ rfl rfl
  | andI d imm | orI d imm | xorI d imm | sltI d imm | sltuI d imm | addI d imm | subI d imm | ldc d imm =>
    simp only [exec_andI, exec_orI, exec_xorI, exec_sltI, exec_sltuI, exec_addI, exec_subI, exec_ldc,
      hreg d List.mem_cons_self]
    exact .setReg _ rfl rfl
  | ldr d imm =>
    rw [exec_ldr, exec_ldr]
    exact .setReg _ rfl rfl
  | lsr d a b | asr d a b =>
    obtain rfl := fixedField_eq_r0 hwf rfl
    simp only [exec_lsr, exec_asr, hreg a List.mem_cons_self]
    exact .setReg _ rfl rfl
  | ldb d a b =>
    obtain rfl := fixedField_eq_r0 hwf rfl
    have hb := hreg b List.mem_cons_self
    cases hacc : m.loadByte (m.reg b) with
    | ok c =>
      rw [exec_ldb_ok hacc, exec_ldb_ok (by rw [hb, withView_loadByte, hacc])]
      exact .setReg _ rfl rfl
    | error e =>
      rw [exec_ldb_error hacc, exec_ldb_error (by rw [hb, withView_loadByte, hacc])]
      exact .fault e
  | ldw d a b =>
    obtain rfl := fixedField_eq_r0 hwf rfl
    have hview := withView_loadWord (m := m) (f := f) (p := p) (m.reg b)
    have hb := hreg b List.mem_cons_self
    cases hacc : m.loadWord (m.reg b) with
    | ok r =>
      obtain ⟨v, m1⟩ := r
      rw [exec_ldw_ok hacc, exec_ldw_ok (by rw [hb, hview, hacc, Except.map])]
      obtain ⟨-, ⟨-, rfl, -⟩ | ⟨-, rfl, -⟩ | ⟨-, rfl, -⟩⟩ := loadWord_ok hacc <;> exact .setReg _ rfl rfl
    | error e =>
      rw [exec_ldw_error hacc, exec_ldw_error (by rw [hb, hview, hacc, Except.map])]
      exact .fault e
  | stb d a b =>
    obtain rfl := fixedField_eq_r0 hwf rfl
    have hview := withView_storeByte (m := m) (f := f) (p := p) (m.reg b) ((m.reg a).extractLsb' 0 8)
    have ha := hreg a List.mem_cons_self
    have hb := hreg b (List.mem_cons_of_mem _ List.mem_cons_self)
    cases hacc : m.storeByte (m.reg b) ((m.reg a).extractLsb' 0 8) with
    | ok m1 =>
      rw [exec_stb_ok hacc, exec_stb_ok (by rw [ha, hb, hview, hacc, Except.map])]
      obtain ⟨-, rfl⟩ := storeByte_ok hacc
      exact .noReg rfl rfl
    | error e =>
      rw [exec_stb_error hacc, exec_stb_error (by rw [ha, hb, hview, hacc, Except.map])]
      exact .fault e
  | stw d a b =>
    obtain rfl := fixedField_eq_r0 hwf rfl
    have hview := withView_storeWord (m := m) (f := f) (p := p) (m.reg b) (m.reg a)
    have ha := hreg a List.mem_cons_self
    have hb := hreg b (List.mem_cons_of_mem _ List.mem_cons_self)
    cases hacc : m.storeWord (m.reg b) (m.reg a) with
    | ok m1 =>
      rw [exec_stw_ok hacc, exec_stw_ok (by rw [ha, hb, hview, hacc, Except.map])]
      obtain ⟨-, ⟨-, rfl⟩ | ⟨-, rfl⟩ | ⟨-, rfl⟩⟩ := storeWord_ok hacc <;> exact .noReg rfl rfl
    | error e =>
      rw [exec_stw_error hacc, exec_stw_error (by rw [ha, hb, hview, hacc, Except.map])]
      exact .fault e
  | bezR d a b | bezRAlias d a b | bnzR d a b | bnzRAlias d a b =>
    obtain rfl := fixedField_eq_r0 hwf rfl
    simp only [exec_bezR, exec_bezRAlias, exec_bnzR, exec_bnzRAlias, Mach.isZero, hreg a List.mem_cons_self]
    exact .branchIf rfl rfl fun _ => hreg b (List.mem_cons_of_mem _ List.mem_cons_self)
  | bezI d imm | bnzI d imm =>
    simp only [exec_bezI, exec_bnzI, Mach.isZero, hreg d List.mem_cons_self]
    exact .branchIf rfl rfl fun hp => congrArg (· + sextImm x imm) hp
  | hcf => exact .noReg rfl rfl

end Congruence

theorem SameOutcome.of_fault {i : Instr} {m : Mach x} {f : RegFile x} {p : Word x} {e : Fault}
    {o : Host.Outcome State Fault Refusal} (h : SameOutcome i m f p (.fault e) o) : o = .fault e := by
  cases h; rfl

theorem SameOutcome.of_next {i : Instr} {m m' : Mach x} {f : RegFile x} {p : Word x}
    {o : Host.Outcome State Fault Refusal} (h : SameOutcome i m f p (.next ⟨x, m'⟩) o) :
    ∃ g q, o = .next ⟨x, withView m' g q⟩ ∧ (∀ r, g.read r = if i.dest = some r then m'.regs.read r else f.read r) ∧
      (p = m.pc → q = m'.pc) ∧ (i.isBranch = false → q = p) := by
  cases h with
  | next _ g q hregs hpc hkeep => exact ⟨g, q, rfl, hregs, hpc, hkeep⟩

/-- Settles O41: the view with the machine's own pc. -/
theorem instructionsReadOnlyTheirSources : Obligations.InstructionsReadOnlyTheirSources := by
  intro x m f i hsrc
  have hsame : SameOutcome i m f m.pc (exec i ⟨x, m⟩) (exec i ⟨x, { m with regs := f }⟩) := exec_sameOutcome hsrc
  refine ⟨fun e he => (he ▸ hsame).of_fault, fun m' hm' => ?_⟩
  obtain ⟨g, q, hexec, hregs, hpc, -⟩ := (hm' ▸ hsame).of_next
  obtain rfl := hpc rfl
  exact ⟨g, hexec, hregs⟩

theorem regFile_ext {f g : RegFile x} (h : ∀ r, f.read r = g.read r) : f = g := by
  cases f; cases g
  simpa only [RegFile.mk.injEq] using ⟨h .r0, h .r1, h .r2, h .r3, h .r4, h .r5, h .r6, h .r7⟩

/-- No instruction reads pc into anything but pc (10_state.md R26): the view with the machine's own registers. -/
theorem exec_setPc {m m' : Mach x} {i : Instr} (p : Word x) (h : exec i ⟨x, m⟩ = .next ⟨x, m'⟩) :
    ∃ q, exec i ⟨x, m.setPc p⟩ = .next ⟨x, m'.setPc q⟩ ∧ (i.isBranch = false → q = p ∧ m'.pc = m.pc) := by
  have hsame : SameOutcome i m m.regs p (exec i ⟨x, m⟩) (exec i ⟨x, m.setPc p⟩) := exec_sameOutcome fun _ _ => rfl
  obtain ⟨hframe, -, hpc, -⟩ := exec_frame h
  obtain ⟨g, q, hexec, hregs, -, hkeep⟩ := (h ▸ hsame).of_next
  have hg : g = m'.regs := regFile_ext fun r => by
    rw [hregs r]
    split
    case isTrue => rfl
    case isFalse hdest => exact (hframe r hdest).symm
  subst hg
  exact ⟨q, hexec, fun hnb => ⟨hkeep hnb, hpc hnb⟩⟩

/-! ### Where an instruction stops -/

/-- What the accesses of the four instructions stop on, the fixed field being r0 (42_load_store.md R155). -/
theorem loadByte_error_iff {m : Mach x} {ea : Word x} {f : Fault} :
    m.loadByte ea = .error f ↔ Config.memSize x ≤ ea.toNat ∧ f = .accessFault ea.toNat := by
  rcases Nat.lt_or_ge ea.toNat (Config.memSize x) with hmem | hout
  · simp [loadByte_in_memory hmem, Nat.not_le_of_lt hmem]
  · simp [loadByte_outside hout, hout, eq_comm]

theorem storeByte_error_iff {m : Mach x} {ea : Word x} {c : Byte} {f : Fault} :
    m.storeByte ea c = .error f ↔ Config.memSize x ≤ ea.toNat ∧ f = .accessFault ea.toNat := by
  rcases Nat.lt_or_ge ea.toNat (Config.memSize x) with hmem | hout
  · simp [storeByte_in_memory c hmem, Nat.not_le_of_lt hmem]
  · simp [storeByte_outside c hout, hout, eq_comm]

/-- An address is that of one port at most. -/
theorem eq_portAddr_iff {addr : Nat} {p q : Port} (h : addr = Config.portAddr x p) :
    addr = Config.portAddr x q ↔ q = p := by
  rw [← portAt_eq_some_iff, portAt_eq_some_iff.mpr h, Option.some_inj, eq_comm]

theorem loadWord_error_iff {m : Mach x} {ea : Word x} {f : Fault} :
    m.loadWord ea = .error f ↔
      (ea.toNat % x.wbytes ≠ 0 ∧ f = .misalignedData ea.toNat) ∨
      (ea.toNat % x.wbytes = 0 ∧ Config.memSize x ≤ ea.toNat ∧ f = .accessFault ea.toNat ∧
        ea.toNat ≠ Config.portAddr x .inChar ∧ ea.toNat ≠ Config.portAddr x .inInt) := by
  rcases word_address_cases x ea.toNat with hmis | ⟨halign, hmem⟩ | ⟨q, hport⟩ | ⟨halign, hout, hport⟩
  · simp [loadWord_misaligned hmis, hmis, eq_comm]
  · simp [loadWord_in_memory halign hmem, halign, Nat.not_le_of_lt hmem]
  · obtain ⟨halign, hout⟩ := portAddr_aligned_outside x q
    rw [← hport] at halign hout
    rw [loadWord_port hport]
    cases q <;> simp [Mach.loadPort, raise, halign, hout, eq_portAddr_iff hport, eq_comm]
  · simp [loadWord_unmapped halign hout hport, halign, hout, hport, eq_comm]

theorem storeWord_error_iff {m : Mach x} {ea v : Word x} {f : Fault} :
    m.storeWord ea v = .error f ↔
      (ea.toNat % x.wbytes ≠ 0 ∧ f = .misalignedData ea.toNat) ∨
      (ea.toNat % x.wbytes = 0 ∧ Config.memSize x ≤ ea.toNat ∧ f = .accessFault ea.toNat ∧
        ea.toNat ≠ Config.portAddr x .outChar ∧ ea.toNat ≠ Config.portAddr x .outInt) := by
  rcases word_address_cases x ea.toNat with hmis | ⟨halign, hmem⟩ | ⟨q, hport⟩ | ⟨halign, hout, hport⟩
  · simp [storeWord_misaligned v hmis, hmis, eq_comm]
  · simp [storeWord_in_memory v halign hmem, halign, Nat.not_le_of_lt hmem]
  · obtain ⟨halign, hout⟩ := portAddr_aligned_outside x q
    rw [← hport] at halign hout
    rw [storeWord_port v hport]
    cases q <;> simp [Mach.storePort, raise, halign, hout, eq_portAddr_iff hport, eq_comm]
  · simp [storeWord_unmapped v halign hout hport, halign, hout, hport, eq_comm]

section Stops

variable {m : Mach x} {d a b : Reg} {f : Fault}

/-- Each of the four instructions stops exactly where its access does. -/
theorem exec_ldb_fault_iff : exec (.ldb d .r0 b) ⟨x, m⟩ = .fault f ↔ m.loadByte (m.reg b) = .error f := by
  cases hacc : m.loadByte (m.reg b) with
  | ok c => simp [exec_ldb_ok hacc]
  | error e => simp [exec_ldb_error hacc]

@[inherit_doc exec_ldb_fault_iff]
theorem exec_stb_fault_iff :
    exec (.stb .r0 a b) ⟨x, m⟩ = .fault f ↔ m.storeByte (m.reg b) ((m.reg a).extractLsb' 0 8) = .error f := by
  cases hacc : m.storeByte (m.reg b) ((m.reg a).extractLsb' 0 8) with
  | ok m1 => simp [exec_stb_ok hacc]
  | error e => simp [exec_stb_error hacc]

@[inherit_doc exec_ldb_fault_iff]
theorem exec_ldw_fault_iff : exec (.ldw d .r0 b) ⟨x, m⟩ = .fault f ↔ m.loadWord (m.reg b) = .error f := by
  cases hacc : m.loadWord (m.reg b) with
  | ok r => simp [exec_ldw_ok hacc]
  | error e => simp [exec_ldw_error hacc]

@[inherit_doc exec_ldb_fault_iff]
theorem exec_stw_fault_iff : exec (.stw .r0 a b) ⟨x, m⟩ = .fault f ↔ m.storeWord (m.reg b) (m.reg a) = .error f := by
  cases hacc : m.storeWord (m.reg b) (m.reg a) with
  | ok m1 => simp [exec_stw_ok hacc]
  | error e => simp [exec_stw_error hacc]

end Stops

/-- Settles O45: an ill-formed term first; then only the four accesses can stop, each as its access does. -/
theorem execFaultsExactlyAsListed : Obligations.ExecFaultsExactlyAsListed := by
  intro x m i f
  by_cases hwf : i.WellFormed
  case neg =>
    have hne : ∀ j : Instr, j.WellFormed → i ≠ j := fun j hj h => hwf (h ▸ hj)
    have hldb : ∀ a b, i ≠ .ldb a .r0 b := fun a b => hne _ (.inr rfl)
    have hstb : ∀ a b, i ≠ .stb .r0 a b := fun a b => hne _ (.inr rfl)
    have hldw : ∀ a b, i ≠ .ldw a .r0 b := fun a b => hne _ (.inr rfl)
    have hstw : ∀ a b, i ≠ .stw .r0 a b := fun a b => hne _ (.inr rfl)
    simp [exec_illFormed hwf, hwf, hldb, hstb, hldw, hstw, eq_comm]
  cases i with
  | ldb d a b =>
    obtain rfl := fixedField_eq_r0 hwf rfl
    simp [hwf, exec_ldb_fault_iff, loadByte_error_iff, and_assoc]
  | stb d a b =>
    obtain rfl := fixedField_eq_r0 hwf rfl
    simp [hwf, exec_stb_fault_iff, storeByte_error_iff, and_assoc]
  | ldw d a b =>
    obtain rfl := fixedField_eq_r0 hwf rfl
    rw [exec_ldw_fault_iff, loadWord_error_iff]
    constructor
    · rintro (⟨hmis, hf⟩ | ⟨halign, hout, hf, hport⟩)
      · exact .inr (.inr (.inl ⟨d, b, .inl rfl, hmis, hf⟩))
      · exact .inr (.inr (.inr ⟨d, b, halign, hout, hf, .inl ⟨rfl, hport⟩⟩))
    · rintro (⟨hbad, -⟩ | ⟨_, _, hi | hi, -⟩ | ⟨_, _, hi | hi, hmis⟩ | ⟨_, _, halign, hout, hf, ⟨hi, hport⟩ | ⟨hi, -⟩⟩)
      · exact absurd hwf hbad
      all_goals cases hi
      · exact .inl hmis
      · exact .inr ⟨halign, hout, hf, hport⟩
  | stw d a b =>
    obtain rfl := fixedField_eq_r0 hwf rfl
    rw [exec_stw_fault_iff, storeWord_error_iff]
    constructor
    · rintro (⟨hmis, hf⟩ | ⟨halign, hout, hf, hport⟩)
      · exact .inr (.inr (.inl ⟨a, b, .inr rfl, hmis, hf⟩))
      · exact .inr (.inr (.inr ⟨a, b, halign, hout, hf, .inr ⟨rfl, hport⟩⟩))
    · rintro (⟨hbad, -⟩ | ⟨_, _, hi | hi, -⟩ | ⟨_, _, hi | hi, hmis⟩ | ⟨_, _, halign, hout, hf, ⟨hi, -⟩ | ⟨hi, hport⟩⟩)
      · exact absurd hwf hbad
      all_goals cases hi
      · exact .inl hmis
      · exact .inr ⟨halign, hout, hf, hport⟩
  | lsr d a b | asr d a b =>
    obtain rfl := fixedField_eq_r0 hwf rfl
    simp [hwf, exec_lsr, exec_asr]
  | bezR d a b | bezRAlias d a b | bnzR d a b | bnzRAlias d a b =>
    obtain rfl := fixedField_eq_r0 hwf rfl
    simp [hwf, exec_bezR, exec_bezRAlias, exec_bnzR, exec_bnzRAlias]
  | _ => simp [hwf, exec_andR, exec_andI, exec_orR, exec_orI, exec_xorR, exec_xorI, exec_sltR, exec_sltI, exec_sltuR,
      exec_sltuI, exec_addR, exec_addI, exec_subR, exec_subI, exec_ldr, exec_ldc, exec_bezI, exec_bnzI, exec_hcf]

end Sys2Proof.Proofs.Frames
end

section
/-! PROOFS. The step: fetch, decode, run, count, and the recording of faults (20_memory.md R61, 60_exceptions.md). -/

namespace Sys2Proof.Proofs.Step

open Sys2Proof Sys2Proof.Machine Sys2Proof.Proofs.Encoding Sys2Proof.Proofs.Computation Sys2Proof.Proofs.Decoder
  Sys2Proof.Proofs.Arithmetic Sys2Proof.Proofs.LoadStore Sys2Proof.Proofs.Branch Sys2Proof.Proofs.Frames

/-! ### Fetch and decode -/

section Fetch

variable {x : Xlen} {m : Mach x} {w : InstrWord} {i : Instr} {f : Fault}

theorem fetch_odd (hodd : m.pc.toNat % 2 ≠ 0) : m.fetch = .error (.misalignedFetch m.pc.toNat) := by
  obtain ⟨-, h⟩ | ⟨heven, -⟩ | ⟨heven, -⟩ := fetch_cases m
  · exact h
  · exact absurd heven hodd
  · exact absurd heven hodd

theorem fetch_outside (heven : m.pc.toNat % 2 = 0) (hout : Config.memSize x < m.pc.toNat + 2) :
    m.fetch = .error (.accessFault m.pc.toNat) := by
  obtain ⟨hodd, -⟩ | ⟨-, hin, -⟩ | ⟨-, -, h⟩ := fetch_cases m
  · exact absurd heven hodd
  · omega
  · exact h

/-- The fetched word is the two bytes at pc, the first the more significant (20_memory.md R43). -/
theorem fetch_inside (heven : m.pc.toNat % 2 = 0) (hin : m.pc.toNat + 2 ≤ Config.memSize x) :
    m.fetch = .ok (m.byteAt m.pc.toNat ++ m.byteAt (m.pc.toNat + 1)) := by
  obtain ⟨hodd, -⟩ | ⟨-, -, h⟩ | ⟨-, hout, -⟩ := fetch_cases m
  · exact absurd heven hodd
  · rw [h, joinBE_two]
  · exact absurd hin hout

theorem fetchInstr_of_decode (h : m.fetch = .ok w) (hdec : decodeWord w = .ok i) : m.fetchInstr = .ok i := by
  simp only [Mach.fetchInstr, h, hdec]

theorem fetchInstr_of_refused {e : DecodeError} (h : m.fetch = .ok w) (hdec : decodeWord w = .error e) :
    m.fetchInstr = .error (.reservedInstruction w) := by
  simp only [Mach.fetchInstr, h, hdec, raise]

theorem fetchInstr_of_fetch_error (h : m.fetch = .error f) : m.fetchInstr = .error f := by
  simp only [Mach.fetchInstr, h]

/-- An instruction is fetched from an even address inside memory, and is well formed. -/
theorem fetchInstr_ok (h : m.fetchInstr = .ok i) :
    m.pc.toNat % 2 = 0 ∧ m.pc.toNat + 2 ≤ Config.memSize x ∧ i.WellFormed := by
  obtain ⟨-, herr⟩ | ⟨heven, hin, hok⟩ | ⟨-, -, herr⟩ := fetch_cases m
  · rw [fetchInstr_of_fetch_error herr] at h; cases h
  · refine ⟨heven, hin, ?_⟩
    cases hdec : decodeWord (joinBE 16 [m.byteAt m.pc.toNat, m.byteAt (m.pc.toNat + 1)]) with
    | ok j =>
      rw [fetchInstr_of_decode hok hdec] at h
      cases h
      exact (reencode_of_decodeWord hdec).1
    | error e => rw [fetchInstr_of_refused hok hdec] at h; cases h
  · rw [fetchInstr_of_fetch_error herr] at h; cases h

end Fetch

/-! ### One step, by the run status and what is fetched -/

section Step

variable {x : Xlen} {m m1 : Mach x} {i : Instr} {f : Fault}

theorem step_of_fetched (hrun : m.status = .running) (hfetch : m.fetchInstr = .ok i) :
    step ⟨x, m⟩ = State.retire (exec i ⟨x, m.advance⟩) := by
  simp only [step, hrun, hfetch]
  rfl

theorem step_of_fetch_error (hrun : m.status = .running) (hfetch : m.fetchInstr = .error f) :
    step ⟨x, m⟩ = .fault f := by
  simp only [step, hrun, hfetch]

theorem step_of_halted {s : State} (h : s.mach.status = .halted) : step s = .next s := by
  simp only [step, h]

/-- A faulted run raises the fault it is recorded with. -/
theorem step_faulted : step ⟨x, { m with status := .faulted f }⟩ = .fault f := rfl

theorem retire_running (h : m.status = .running) :
    State.retire (.next ⟨x, m⟩) = .next ⟨x, { m with cycles := m.cycles + 1 }⟩ := by
  simp only [State.retire, h]

theorem retire_not_running (h : m.status ≠ .running) : State.retire (.next ⟨x, m⟩) = .next ⟨x, m⟩ := by
  cases hs : m.status with
  | running => exact absurd hs h
  | halted => simp only [State.retire, hs]
  | faulted f => simp only [State.retire, hs]

/-- A running machine whose instruction leaves the run going completes the step and counts one. -/
theorem step_completes (hrun : m.status = .running) (hfetch : m.fetchInstr = .ok i)
    (hexec : exec i ⟨x, m.advance⟩ = .next ⟨x, m1⟩) (hstatus : m1.status = .running) :
    step ⟨x, m⟩ = .next ⟨x, { m1 with cycles := m1.cycles + 1 }⟩ := by
  rw [step_of_fetched hrun hfetch, hexec, retire_running hstatus]

/-- Everything a completed step of a running machine can be: an instruction other than HCF, counted, or HCF. -/
theorem step_running_next {m' : Mach x} (hrun : m.status = .running) (h : step ⟨x, m⟩ = .next ⟨x, m'⟩) :
    ∃ i m1, m.fetchInstr = .ok i ∧ exec i ⟨x, m.advance⟩ = .next ⟨x, m1⟩ ∧
      ((i ≠ .hcf ∧ m1.status = .running ∧ m' = { m1 with cycles := m.cycles + 1 }) ∨
       (i = .hcf ∧ m' = m1 ∧ m1 = m.advance.setStatus .halted)) := by
  obtain ⟨hhalt, -⟩ | ⟨-, i, hfetch, hretire⟩ := step_next h
  · exact absurd (hrun.symm.trans hhalt) (by decide)
  obtain ⟨u, hexec, -⟩ := retire_next hretire
  obtain ⟨m1, rfl, -⟩ := exec_next_cases (m := m.advance) hexec
  refine ⟨i, m1, hfetch, hexec, ?_⟩
  replace hexec : exec i ⟨x, m.advance⟩ = .next ⟨x, m1⟩ := hexec
  obtain ⟨-, -, -, hcycles, hstatus⟩ := exec_frame hexec
  by_cases hi : i = .hcf
  · subst hi
    cases (exec_hcf m.advance).symm.trans hexec
    cases (retire_not_running (m := m.advance.setStatus .halted) nofun).symm.trans hretire
    exact .inr ⟨rfl, rfl, rfl⟩
  · have hrun1 : m1.status = .running := (hstatus hi).trans hrun
    cases (step_completes hrun hfetch hexec hrun1).symm.trans h
    rw [hcycles]
    exact .inl ⟨hi, hrun1, rfl⟩

end Step

/-! ### The statements about one step -/

/-- Settles O43. -/
theorem stepRunsDecodedInstruction : Obligations.StepRunsDecodedInstruction := by
  intro x m i hrun heven hin hdec
  have hstep : step ⟨x, m⟩ = State.retire (exec i ⟨x, m.setPc (m.pc + BitVec.ofNat x.bits 2)⟩) :=
    step_of_fetched hrun (fetchInstr_of_decode (fetch_inside heven hin) hdec)
  refine ⟨hstep, fun m' hexec => ?_, fun f hexec => ?_⟩
  · rw [hstep, hexec]
    split
    case isTrue hgo => exact retire_running hgo
    case isFalse hstop => exact retire_not_running hstop
  · rw [hstep, hexec]
    rfl

/-- Settles O44: each fault is that of the first check that fails. -/
theorem fetchFaultsInOrder : Obligations.FetchFaultsInOrder := by
  intro x m hrun
  refine ⟨fun hodd => ?_, fun heven hout => ?_, fun heven hin e hdec => ?_⟩
  · exact step_of_fetch_error hrun (fetchInstr_of_fetch_error (fetch_odd (by omega)))
  · exact step_of_fetch_error hrun (fetchInstr_of_fetch_error (fetch_outside heven hout))
  · exact step_of_fetch_error hrun (fetchInstr_of_refused (fetch_inside heven hin) hdec)

/-- No instruction is refused: run twice on one machine, it has the outcomes that SameOutcome lists. -/
theorem exec_not_refused (i : Instr) (s : State) (r : Refusal) : exec i s ≠ .refused r := by
  obtain ⟨x, m⟩ := s
  intro h
  have hsame := exec_sameOutcome (i := i) (m := m) (f := m.regs) (p := m.pc) fun _ _ => rfl
  rw [h] at hsame
  cases hsame

/-- Retiring refuses only what was refused. -/
theorem retire_refused {o : Host.Outcome State Fault Refusal} {r : Refusal} (h : State.retire o = .refused r) :
    o = .refused r := by
  cases o with
  | refused q => exact h
  | fault f => cases h
  | next t =>
    obtain ⟨x, m⟩ := t
    by_cases hrun : m.status = .running
    · rw [retire_running hrun] at h; cases h
    · rw [retire_not_running hrun] at h; cases h

/-- Settles O47: only a running machine runs an instruction, and no instruction is refused. -/
theorem stepNeverRefuses : Obligations.StepNeverRefuses := by
  rintro ⟨x, m⟩ r h
  cases hs : m.status with
  | halted => rw [step_of_halted hs] at h; cases h
  | faulted f => simp only [step, hs] at h; cases h
  | running =>
    cases hfetch : m.fetchInstr with
    | error f => rw [step_of_fetch_error hs hfetch] at h; cases h
    | ok i =>
      rw [step_of_fetched hs hfetch] at h
      exact exec_not_refused i _ r (retire_refused h)

/-- Settles O48. -/
theorem stepCountsInstructions : Obligations.StepCountsInstructions := by
  intro x m m' hrun h
  obtain ⟨i, m1, hfetch, -, ⟨hi, hrun1, rfl⟩ | ⟨rfl, rfl, rfl⟩⟩ := step_running_next hrun h
  · exact .inl ⟨fun hhcf => hi (Except.ok.inj (hfetch.symm.trans hhcf)), hrun1, rfl⟩
  · exact .inr ⟨hfetch, rfl, rfl, rfl⟩

/-! ### Runs that have stopped -/

/-- A state that recording a step does not change stays as it is. -/
theorem runRecorded_of_fixed {s : State} (h : s.stepRecorded = s) (n : Nat) : State.runRecorded n s = s := by
  induction n with
  | zero => rfl
  | succ n ih => rw [State.runRecorded, h, ih]

/-- Settles O49. -/
theorem haltedRunStays : Obligations.HaltedRunStays := by
  intro s hs n
  refine runRecorded_of_fixed ?_ n
  rw [State.stepRecorded, step_of_halted hs, State.settle]

/-- Settles O46: the first step records the fault, and a recorded fault is recorded again by every later step. -/
theorem faultsAreTerminalAndPrecise : Obligations.FaultsAreTerminalAndPrecise := by
  intro x m f hstep n
  have hfirst : State.stepRecorded ⟨x, m⟩ = ⟨x, { m with status := .faulted f }⟩ := by
    rw [State.stepRecorded, hstep, State.settle]
  have hrest : State.runRecorded (n + 1) ⟨x, m⟩ = ⟨x, { m with status := .faulted f }⟩ := by
    rw [State.runRecorded, hfirst]
    exact runRecorded_of_fixed rfl n
  exact ⟨hrest, hrest ▸ step_faulted⟩

/-! ### Branches and pc -/

section Branches

variable {x : Xlen} {m m1 : Mach x} {i : Instr}

/-- Every branch that is an instruction completes, whatever its target is. -/
theorem exec_branch (hwf : i.WellFormed) (hbr : i.isBranch = true) (m : Mach x) :
    ∃ c t, exec i ⟨x, m⟩ = .next ⟨x, m.branchIf c t⟩ := by
  cases i with
  | bezR d a b => obtain rfl := fixedField_eq_r0 hwf rfl; exact ⟨_, _, exec_bezR m a b⟩
  | bezRAlias d a b => obtain rfl := fixedField_eq_r0 hwf rfl; exact ⟨_, _, exec_bezRAlias m a b⟩
  | bnzR d a b => obtain rfl := fixedField_eq_r0 hwf rfl; exact ⟨_, _, exec_bnzR m a b⟩
  | bnzRAlias d a b => obtain rfl := fixedField_eq_r0 hwf rfl; exact ⟨_, _, exec_bnzRAlias m a b⟩
  | bezI d imm => exact ⟨_, _, exec_bezI m d imm⟩
  | bnzI d imm => exact ⟨_, _, exec_bnzI m d imm⟩
  | _ => cases hbr

/-- A branch of a running machine completes its step. -/
theorem step_branch (hrun : m.status = .running) (hfetch : m.fetchInstr = .ok i) (hbr : i.isBranch = true) :
    ∃ m1, exec i ⟨x, m.advance⟩ = .next ⟨x, m1⟩ ∧ m1.status = .running ∧
      step ⟨x, m⟩ = .next ⟨x, { m1 with cycles := m1.cycles + 1 }⟩ := by
  obtain ⟨-, -, hwf⟩ := fetchInstr_ok hfetch
  obtain ⟨c, t, hexec⟩ := exec_branch hwf hbr m.advance
  obtain ⟨-, -, -, hstatus, -⟩ := branchIf_onlyPc m.advance c t
  exact ⟨_, hexec, hstatus.trans hrun, step_completes hrun hfetch hexec (hstatus.trans hrun)⟩

/-- The machine after a branch whose meaning is known. -/
theorem pc_of_branch {c : Bool} {t : Word x} (h : exec i ⟨x, m⟩ = .next ⟨x, m1⟩)
    (hexec : exec i ⟨x, m⟩ = .next ⟨x, m.branchIf c t⟩) : m1.pc = if c = true then t else m.pc := by
  cases h.symm.trans hexec
  exact branchIf_pc m c t

theorem pc_of_exec_bez {a b : Reg} (hi : i = .bezR .r0 a b ∨ i = .bezRAlias .r0 a b)
    (h : exec i ⟨x, m⟩ = .next ⟨x, m1⟩) : m1.pc = if m.reg a = 0 then m.reg b else m.pc := by
  have hexec : exec i ⟨x, m⟩ = .next ⟨x, m.branchIf (m.isZero a) (m.reg b)⟩ := by
    rcases hi with rfl | rfl
    · exact exec_bezR m a b
    · exact exec_bezRAlias m a b
  rw [pc_of_branch h hexec]
  simp only [isZero_iff]

theorem pc_of_exec_bnz {a b : Reg} (hi : i = .bnzR .r0 a b ∨ i = .bnzRAlias .r0 a b)
    (h : exec i ⟨x, m⟩ = .next ⟨x, m1⟩) : m1.pc = if m.reg a = 0 then m.pc else m.reg b := by
  have hexec : exec i ⟨x, m⟩ = .next ⟨x, m.branchIf (!m.isZero a) (m.reg b)⟩ := by
    rcases hi with rfl | rfl
    · exact exec_bnzR m a b
    · exact exec_bnzRAlias m a b
  rw [pc_of_branch h hexec]
  simp only [not_isZero_iff, ne_eq, ite_not]

theorem pc_of_exec_bezI {d : Reg} {imm : BitVec 8} (h : exec (.bezI d imm) ⟨x, m⟩ = .next ⟨x, m1⟩) :
    m1.pc = if m.reg d = 0 then m.relativeTarget imm else m.pc := by
  rw [pc_of_branch h (exec_bezI m d imm)]
  simp only [isZero_iff]

theorem pc_of_exec_bnzI {d : Reg} {imm : BitVec 8} (h : exec (.bnzI d imm) ⟨x, m⟩ = .next ⟨x, m1⟩) :
    m1.pc = if m.reg d = 0 then m.pc else m.relativeTarget imm := by
  rw [pc_of_branch h (exec_bnzI m d imm)]
  simp only [not_isZero_iff, ne_eq, ite_not]

/-- The forms of branch that are instructions. -/
theorem branch_forms (hwf : i.WellFormed) (hbr : i.isBranch = true) :
    (∃ a b, i = .bezR .r0 a b ∨ i = .bezRAlias .r0 a b) ∨ (∃ a b, i = .bnzR .r0 a b ∨ i = .bnzRAlias .r0 a b) ∨
      (∃ d imm, i = .bezI d imm) ∨ (∃ d imm, i = .bnzI d imm) := by
  cases i with
  | bezR d a b => obtain rfl := fixedField_eq_r0 hwf rfl; exact .inl ⟨a, b, .inl rfl⟩
  | bezRAlias d a b => obtain rfl := fixedField_eq_r0 hwf rfl; exact .inl ⟨a, b, .inr rfl⟩
  | bnzR d a b => obtain rfl := fixedField_eq_r0 hwf rfl; exact .inr (.inl ⟨a, b, .inl rfl⟩)
  | bnzRAlias d a b => obtain rfl := fixedField_eq_r0 hwf rfl; exact .inr (.inl ⟨a, b, .inr rfl⟩)
  | bezI d imm => exact .inr (.inr (.inl ⟨d, imm, rfl⟩))
  | bnzI d imm => exact .inr (.inr (.inr ⟨d, imm, rfl⟩))
  | _ => cases hbr

end Branches

/-- Settles O51: the step completes by step_branch, and the machine after it runs, so that its next fetch decides. -/
theorem badBranchTargetFaultsAtNextFetch : Obligations.BadBranchTargetFaultsAtNextFetch := by
  intro x m i hrun hfetch hbr
  obtain ⟨m1, hexec, hrun1, hstep⟩ := step_branch hrun hfetch hbr
  obtain ⟨hodd, hout, -⟩ := fetchFaultsInOrder x { m1 with cycles := m1.cycles + 1 } hrun1
  refine ⟨_, hstep, hodd, fun heven hge => hout heven (by omega), fun a b hi => pc_of_exec_bez hi hexec,
    fun a b hi => pc_of_exec_bnz hi hexec, ?_, ?_⟩
  · rintro d imm rfl
    exact pc_of_exec_bezI hexec
  · rintro d imm rfl
    exact pc_of_exec_bnzI hexec

/-- The increment of pc as a number (10_state.md R25, R28). -/
theorem advance_pc_toNat {x : Xlen} (m : Mach x) : m.advance.pc.toNat = (m.pc.toNat + 2) % 2 ^ x.bits := by
  rw [advance_pc, BitVec.toNat_add, BitVec.toNat_ofNat, Nat.add_mod_mod, Config.ilenBytes]

@[inherit_doc advance_pc_toNat]
theorem advance_pc_cast {x : Xlen} (m : Mach x) : (m.advance.pc.toNat : Int) = (m.pc.toNat + 2) % 2 ^ x.bits := by
  rw [advance_pc_toNat, Int.natCast_emod, Int.natCast_add, Int.natCast_pow]
  rfl

/-- A relative target of the advanced machine, from the address of the branch. -/
theorem relativeTarget_advance_toNat {x : Xlen} (m : Mach x) (imm : BitVec 8) :
    ((m.advance.relativeTarget imm).toNat : Int) = (m.pc.toNat + (2 + imm.toInt)) % 2 ^ x.bits := by
  rw [relativeTarget_toNat, advance_pc_cast, Int.emod_add_emod, Int.add_assoc]

/-- Settles O50: the condition and its negation give the same two values of pc. -/
theorem relativeBranchBaseIsNextInstruction : Obligations.RelativeBranchBaseIsNextInstruction := by
  intro x m d imm i hrun hfetch hi
  have hbr : i.isBranch = true := by rcases hi with rfl | rfl <;> rfl
  obtain ⟨m1, hexec, -, hstep⟩ := step_branch hrun hfetch hbr
  have hmin : -128 ≤ imm.toInt := BitVec.le_toInt imm
  have hmax : imm.toInt < 128 := BitVec.toInt_lt
  refine ⟨_, hstep, ?_, by omega, by omega⟩
  show (m1.pc.toNat : Int) = _
  have htaken := relativeTarget_advance_toNat m imm
  have hnext := advance_pc_cast m
  rcases hi with rfl | rfl
  · rw [pc_of_exec_bezI hexec, advance_reg]
    by_cases hz : m.reg d = 0
    · rw [if_pos hz, if_pos (iff_of_true rfl hz), htaken]
    · rw [if_neg hz, if_neg fun h => hz (h.mp rfl), hnext]
  · rw [pc_of_exec_bnzI hexec, advance_reg]
    by_cases hz : m.reg d = 0
    · rw [if_pos hz, if_neg fun h => (nomatch h.mpr hz), hnext]
    · rw [if_neg hz, if_pos (iff_of_false nofun hz), htaken]

/-- Settles O42: exec_setPc, and after a step the increment or one of the four forms of taken branch. -/
theorem pcChangesOnlyByIncrementOrBranch : Obligations.PcChangesOnlyByIncrementOrBranch := by
  refine ⟨fun x m m' i p h => exec_setPc p h, fun x m m' hrun h => ?_⟩
  obtain ⟨i, m1, hfetch, hexec, hm'⟩ := step_running_next hrun h
  have hpc : m'.pc = m1.pc := by
    obtain ⟨-, -, rfl⟩ | ⟨-, rfl, -⟩ := hm' <;> rfl
  rw [hpc]
  cases hbr : i.isBranch with
  | false =>
    obtain ⟨-, -, hkeep, -⟩ := exec_frame hexec
    exact .inl (hkeep hbr)
  | true =>
    obtain ⟨-, -, hwf⟩ := fetchInstr_ok hfetch
    obtain ⟨a, b, hi⟩ | ⟨a, b, hi⟩ | ⟨d, imm, rfl⟩ | ⟨d, imm, rfl⟩ := branch_forms hwf hbr
    · have hmove := pc_of_exec_bez hi hexec
      by_cases hz : m.reg a = 0
      · refine .inr (.inl ⟨a, b, .inl ⟨hi.imp ?_ ?_, hz⟩, hmove.trans (if_pos hz)⟩) <;> rintro rfl <;> exact hfetch
      · exact .inl (hmove.trans (if_neg hz))
    · have hmove := pc_of_exec_bnz hi hexec
      by_cases hz : m.reg a = 0
      · exact .inl (hmove.trans (if_pos hz))
      · refine .inr (.inl ⟨a, b, .inr ⟨hi.imp ?_ ?_, hz⟩, hmove.trans (if_neg hz)⟩) <;> rintro rfl <;> exact hfetch
    · have hmove := pc_of_exec_bezI hexec
      by_cases hz : m.reg d = 0
      · exact .inr (.inr ⟨d, imm, .inl ⟨hfetch, hz⟩, hmove.trans (if_pos hz)⟩)
      · exact .inl (hmove.trans (if_neg hz))
    · have hmove := pc_of_exec_bnzI hexec
      by_cases hz : m.reg d = 0
      · exact .inl (hmove.trans (if_pos hz))
      · exact .inr (.inr ⟨d, imm, .inr ⟨hfetch, hz⟩, hmove.trans (if_neg hz)⟩)

/-! ### A store and the next fetch (20_memory.md section 7) -/

/-- What a store of n bytes to memory leaves: its bytes hold the low n bytes of x[RsA], everything else is as before. -/
theorem exec_store {x : Xlen} {m : Mach x} {a b : Reg} {i : Instr} {n : Nat}
    (hi : i = .stw .r0 a b ∧ n = x.wbytes ∧ (m.reg b).toNat % n = 0 ∨ i = .stb .r0 a b ∧ n = 1)
    (hmem : (m.reg b).toNat < Config.memSize x) :
    ∃ m1, exec i ⟨x, m⟩ = .next ⟨x, m1⟩ ∧ m.OnlyBytes (m.reg b).toNat n m1 ∧
      ∀ k, k < n → (m1.byteAt ((m.reg b).toNat + k)).toNat = byteOf n k (m.reg a).toNat := by
  obtain ⟨rfl, rfl, halign⟩ | ⟨rfl, rfl⟩ := hi
  · obtain ⟨-, hstore⟩ := stwStoresBigEndianWord x m a b
    exact hstore halign hmem
  · obtain ⟨-, hstore⟩ := stbStoresLowByte x m a b
    obtain ⟨m1, hexec, hframe, hbyte⟩ := hstore hmem
    refine ⟨m1, hexec, hframe, fun k hk => ?_⟩
    obtain rfl : k = 0 := by omega
    simpa [byteOf] using hbyte

/-- Settles O37: the fetch reads the two bytes at the new pc, each inside the store or outside it. -/
theorem storeIsSeenByNextFetch : Obligations.StoreIsSeenByNextFetch := by
  intro x m a b i n hrun hfetch hi hmem hpc4
  obtain ⟨heven, -, -⟩ := fetchInstr_ok hfetch
  obtain ⟨m1, hexec, ⟨-, hpc, houtside, -, hstatus, -⟩, hbytes⟩ := exec_store (m := m.advance) hi hmem
  have hpc2 : m1.pc.toNat = m.pc.toNat + 2 := by
    have hbits : Config.memSize x < 2 ^ x.bits := by cases x <;> decide
    rw [hpc, advance_pc_toNat, Nat.mod_eq_of_lt (by omega)]
  have hword : m1.fetch = .ok (m1.byteAt (m.pc.toNat + 2) ++ m1.byteAt (m.pc.toNat + 3)) := by
    rw [fetch_inside (by omega) (by omega), hpc2]
  have hkept : ∀ addr, (∀ k, k < n → (m.reg b).toNat + k ≠ addr) → m1.byteAt addr = m.byteAt addr := by
    intro addr hnot
    refine houtside addr ?_
    refine Decidable.byContradiction fun hin => ?_
    rw [advance_reg] at hin
    exact hnot (addr - (m.reg b).toNat) (by omega) (by omega)
  refine ⟨_, _, _, step_completes hrun hfetch hexec (hstatus.trans hrun), hpc2, hword, fun k hk haddr => ?_,
    fun k hk haddr => ?_, hkept _, hkept _⟩
  · rw [← haddr]; exact hbytes k hk
  · rw [← haddr]; exact hbytes k hk

end Sys2Proof.Proofs.Step
end

section
/-! PROOFS. Reset, the load of an image, and the invariant of memory (10_state.md section 7,
70_reset_and_hazards.md). -/

namespace Sys2Proof.Proofs.Loading

open Sys2Proof Sys2Proof.Machine Sys2Proof.Proofs.Encoding Sys2Proof.Proofs.LoadStore

/-! ### The invariant of memory -/

/-- An instruction keeps the invariant: it leaves memory as it is, or stores bytes inside memory. -/
theorem exec_keeps_memoryInv {x : Xlen} {m : Mach x} {i : Instr} {t : State} (h : exec i ⟨x, m⟩ = .next t)
    (hinv : State.MemoryInv ⟨x, m⟩) : t.MemoryInv := by
  obtain ⟨hwf, hbelow⟩ := hinv
  obtain ⟨m', rfl, hcases⟩ := exec_next_cases h
  rcases hcases with ⟨d, v, -, rfl | rfl | rfl⟩ | ⟨-, -, a, n, v, hin, rfl⟩ | ⟨-, -, a, c, hin, rfl⟩ | ⟨-, -, e, rfl⟩ |
    ⟨-, -, rfl | ⟨p, rfl⟩⟩ | ⟨-, rfl⟩
  case inr.inl =>
    exact ⟨memWrite_mem_wf m a n v hwf, Memory.below_writeBytes _ (by rwa [splitBE_length]) hbelow⟩
  case inr.inr.inl =>
    exact ⟨memWrite_mem_wf m a 1 c hwf, Memory.below_writeBytes _ (by rwa [splitBE_length]) hbelow⟩
  all_goals exact ⟨hwf, hbelow⟩

/-- Settles O54: a halted machine stays; a running one runs an instruction, and neither the increment of pc nor the
count is about memory. -/
theorem stepKeepsMemoryInv : Obligations.StepKeepsMemoryInv := by
  rintro ⟨x, m⟩ t hinv h
  obtain ⟨-, rfl⟩ | ⟨-, i, -, hretire⟩ := step_next h
  · exact hinv
  · obtain ⟨u, hexec, hcount⟩ := retire_next hretire
    have hkept : u.MemoryInv := exec_keeps_memoryInv (m := m.advance) hexec hinv
    obtain ⟨-, rfl⟩ | ⟨-, rfl⟩ := hcount <;> exact hkept

/-! ### Which images load -/

theorem distinctAddrs_iff (l : List Nat) : distinctAddrs l = true ↔ l.Nodup := by
  induction l with
  | nil => simp [distinctAddrs]
  | cons a rest ih => simp [distinctAddrs, ih]

/-- The requirements on an image, as the rule states them (70_reset_and_hazards.md R301). -/
theorem image_ok_iff {x : Xlen} {img : Image} :
    img.ok x = true ↔
      (∀ a w, (a, w) ∈ img → a % 2 = 0 ∧ a + 1 < Config.memSize x) ∧ (img.map Prod.fst).Nodup := by
  simp [Image.ok, distinctAddrs_iff]

/-- An image boots exactly if it meets the requirements, to the reset machine with the image in its memory. -/
theorem boot_eq_some_iff {x : Xlen} {img : Image} {m : Mach x} :
    Mach.boot x img = some m ↔ img.ok x = true ∧ m = { Mach.reset x with mem := Memory.load [] img } := by
  unfold Mach.boot
  split
  case isTrue hok => simp [hok, eq_comm]
  case isFalse hbad => simp [hbad]

/-! ### What a load stores -/

/-- An address that an image does not cover reads as before the load. -/
theorem read?_load_outside (img : Image) (mem : Memory) (addr : Nat)
    (h : ∀ a w, (a, w) ∈ img → addr ≠ a ∧ addr ≠ a + 1) : (mem.load img).read? addr = mem.read? addr := by
  induction img generalizing mem with
  | nil => rw [Memory.load]
  | cons c rest ih =>
    obtain ⟨a, w⟩ := c
    obtain ⟨hhi, hlo⟩ := h a w List.mem_cons_self
    rw [Memory.load, ih _ fun b v hb => h b v (List.mem_cons_of_mem _ hb), Memory.read?_writeBytes_outside]
    simp only [wordBytes, List.length_cons, List.length_nil]
    omega

/-- Both bytes of a word of an image read back: its address is even and occurs once, so no later word covers them. -/
theorem read?_load_inside {img : Image} (mem : Memory) {a : Nat} {w : InstrWord}
    (heven : ∀ b v, (b, v) ∈ img → b % 2 = 0) (hnodup : (img.map Prod.fst).Nodup) (hmem : (a, w) ∈ img) {k : Nat}
    (hk : k < (wordBytes w).length) : (mem.load img).read? (a + k) = some (wordBytes w)[k] := by
  induction img generalizing mem with
  | nil => cases hmem
  | cons c rest ih =>
    obtain ⟨b, v⟩ := c
    rw [Memory.load]
    rw [List.map_cons, List.nodup_cons] at hnodup
    obtain ⟨hfresh, hnodup⟩ := hnodup
    rcases List.mem_cons.mp hmem with heq | hrest
    · cases heq
      have hk2 : k < 2 := hk
      rw [read?_load_outside, Memory.read?_writeBytes_inside]
      intro b v hb
      have hne : b ≠ a := fun h => hfresh (List.mem_map.mpr ⟨(b, v), hb, h⟩)
      have ha := heven a w List.mem_cons_self
      have hb := heven b v (List.mem_cons_of_mem _ hb)
      omega
    · exact ih _ (fun b v hb => heven b v (List.mem_cons_of_mem _ hb)) hnodup hrest

/-- Loading words that lie below a limit lists nothing at or above it. -/
theorem below_load {img : Image} {limit : Nat} (mem : Memory) (himg : ∀ a w, (a, w) ∈ img → a + 1 < limit)
    (h : mem.below limit = true) : (mem.load img).below limit = true := by
  induction img generalizing mem with
  | nil => rw [Memory.load]; exact h
  | cons c rest ih =>
    obtain ⟨a, w⟩ := c
    rw [Memory.load]
    exact ih _ (fun b v hb => himg b v (List.mem_cons_of_mem _ hb))
      (Memory.below_writeBytes _ (himg a w List.mem_cons_self) h)

/-- The high byte of a word as a number. -/
theorem high_byte_toNat (w : InstrWord) : (w.extractLsb' 8 8).toNat = w.toNat / 256 := by
  have hw : w.toNat < 65536 := w.isLt
  rw [extract_toNat]
  omega

/-! ### The statements -/

/-- Settles O52. -/
theorem resetHoldsTheStartValues : Obligations.ResetHoldsTheStartValues := by
  refine ⟨fun x => ⟨?_, rfl, rfl⟩, rfl, rfl, rfl⟩
  rw [reset_pc, Config.entry, BitVec.toNat_ofNat, Nat.zero_mod]

/-- Settles O53. -/
theorem loaderStoresTheImage : Obligations.LoaderStoresTheImage := by
  intro x img
  refine ⟨?_, fun m hboot => ?_⟩
  · simp only [boot_eq_some_iff, exists_and_left, exists_eq, and_true, image_ok_iff]
  · obtain ⟨hok, rfl⟩ := boot_eq_some_iff.mp hboot
    obtain ⟨haddr, hnodup⟩ := image_ok_iff.mp hok
    obtain ⟨hstart, -⟩ := resetHoldsTheStartValues
    refine ⟨(hstart x).1, rfl, fun a w hmem => ?_, fun addr hout => ?_⟩
    · have heven := fun b v hb => (haddr b v hb).1
      have hhi := read?_load_inside [] heven hnodup hmem (k := 0) Nat.two_pos
      have hlo := read?_load_inside [] heven hnodup hmem (k := 1) Nat.one_lt_two
      rw [Nat.add_zero] at hhi
      simp only [Mach.byteAt, hhi, hlo, Option.getD_some]
      exact ⟨high_byte_toNat w, low_byte_toNat w⟩
    · rw [Mach.byteAt, read?_load_outside img [] addr hout, Memory.read?_nil, Option.getD_none]

/-- Settles O55: the reset memory is empty, and the load keeps both parts. -/
theorem resetHasMemoryInv : Obligations.ResetHasMemoryInv := by
  refine ⟨⟨rfl, rfl⟩, fun x img m hboot => ?_⟩
  obtain ⟨hok, rfl⟩ := boot_eq_some_iff.mp hboot
  obtain ⟨haddr, -⟩ := image_ok_iff.mp hok
  exact ⟨Memory.wf_load img rfl, below_load [] (fun a w hmem => (haddr a w hmem).2) rfl⟩

end Sys2Proof.Proofs.Loading
end

section
/-! PROOFS. The expansions of the pseudo-operations and the object code (45_pseudo_operations.md, 30_encoding.md R96,
R97). -/

namespace Sys2Proof.Proofs.Assembly

open Sys2Proof Sys2Proof.Machine Sys2Proof.Proofs.Loading

/-! ### The patterns of the expansions -/

/-- Every instruction of a sequence is well formed (70_reset_and_hazards.md R308). -/
def AllWellFormed (l : List Instr) : Prop := ∀ i, i ∈ l → i.WellFormed

theorem allWellFormed_cons {i : Instr} {l : List Instr} (hi : i.WellFormed) (hl : AllWellFormed l) :
    AllWellFormed (i :: l) :=
  List.forall_mem_cons.mpr ⟨hi, hl⟩

theorem allWellFormed_append {l k : List Instr} (hl : AllWellFormed l) (hk : AllWellFormed k) :
    AllWellFormed (l ++ k) :=
  List.forall_mem_append.mpr ⟨hl, hk⟩

theorem allWellFormed_singleton {i : Instr} (hi : i.WellFormed) : AllWellFormed [i] :=
  List.forall_mem_singleton.mpr hi

/-- Both encodings of the register branches have r0 in the fixed field. -/
theorem asmBez_wellFormed (o : AsmBranchOp2) (a b : Reg) : (asmBez o a b).WellFormed := by cases o <;> exact .inr rfl

@[inherit_doc asmBez_wellFormed]
theorem asmBnz_wellFormed (o : AsmBranchOp2) (a b : Reg) : (asmBnz o a b).WellFormed := by cases o <;> exact .inr rfl

theorem expandLdi_wellFormed (r : Reg) (c : BitVec 16) : AllWellFormed (expandLdi r c) :=
  allWellFormed_cons (.inl rfl) (allWellFormed_singleton (.inl rfl))

theorem expandSubPush_wellFormed (r : Reg) : AllWellFormed (expandSubPush r) :=
  allWellFormed_cons (.inl rfl) (allWellFormed_singleton (.inr rfl))

theorem expandNotSet_wellFormed {compare : Instr} (h : compare.WellFormed) (d : Reg) :
    AllWellFormed (expandNotSet compare d) :=
  allWellFormed_cons h (allWellFormed_cons (.inl rfl) (allWellFormed_singleton (.inl rfl)))

/-- A constant loaded into a register, then one instruction. -/
theorem ldi_then_wellFormed (r : Reg) (c : BitVec 16) {i : Instr} (h : i.WellFormed) :
    AllWellFormed (expandLdi r c ++ [i]) :=
  allWellFormed_append (expandLdi_wellFormed r c) (allWellFormed_singleton h)

theorem expandCompareBranch_wellFormed (addr : BitVec 16) {compare branch : Instr} (hc : compare.WellFormed)
    (hb : branch.WellFormed) : AllWellFormed (expandCompareBranch addr compare branch) :=
  allWellFormed_append (expandLdi_wellFormed .at_ addr) (allWellFormed_cons hc (allWellFormed_singleton hb))

/-- Every expansion is made of those patterns. -/
theorem expand_wellFormed {κ : Type} (p : Pseudo κ) (val : κ → BitVec 16) (o : AsmBranchOp2) (here : BitVec 16) :
    AllWellFormed (p.expand val o here) := by
  cases p with
  | nop | not r | lsl d a | sgt d a b | sgtu d a b => exact allWellFormed_singleton (.inl rfl)
  | neg r | seq d a b => exact allWellFormed_cons (.inl rfl) (allWellFormed_singleton (.inl rfl))
  | sne d a b | lslm r n =>
    exact allWellFormed_cons (.inl rfl) (allWellFormed_cons (.inl rfl) (allWellFormed_singleton (.inl rfl)))
  | lsr d a | asr d a | ldb r b | stb r b | ldw r b | stw r b => exact allWellFormed_singleton (.inr rfl)
  | lsrm r n | asrm r n =>
    exact allWellFormed_cons (.inr rfl) (allWellFormed_cons (.inl rfl) (allWellFormed_singleton (.inl rfl)))
  | push r => exact allWellFormed_cons (.inl rfl) (allWellFormed_singleton (.inr rfl))
  | pop r => exact allWellFormed_cons (.inr rfl) (allWellFormed_singleton (.inl rfl))
  | ldi r c => exact expandLdi_wellFormed r (val c)
  | bez r t => exact allWellFormed_singleton (asmBez_wellFormed o r t)
  | bnz r t => exact allWellFormed_singleton (asmBnz_wellFormed o r t)
  | jmpr r => exact allWellFormed_singleton (asmBnz_wellFormed o .sp r)
  | ret => exact allWellFormed_singleton (asmBnz_wellFormed o .sp .lr)
  | bezTo r addr => exact ldi_then_wellFormed _ _ (asmBez_wellFormed o r .at_)
  | bnzTo r addr => exact ldi_then_wellFormed _ _ (asmBnz_wellFormed o r .at_)
  | jmp addr => exact ldi_then_wellFormed _ _ (asmBnz_wellFormed o .sp .at_)
  | jalr r => exact ldi_then_wellFormed _ _ (asmBnz_wellFormed o .sp r)
  | ldbAt r addr | stbAt r addr | ldwAt r addr | stwAt r addr => exact ldi_then_wellFormed _ _ (.inr rfl)
  | sge d a b | sgeu d a b | sle d a b | sleu d a b => exact expandNotSet_wellFormed (.inl rfl) d
  | beq a b addr | bge a b addr | bgeu a b addr | ble a b addr | bleu a b addr =>
    exact expandCompareBranch_wellFormed _ (.inl rfl) (asmBez_wellFormed o _ _)
  | bne a b addr | blt a b addr | bltu a b addr | bgt a b addr | bgtu a b addr =>
    exact expandCompareBranch_wellFormed _ (.inl rfl) (asmBnz_wellFormed o _ _)
  | jal addr =>
    exact allWellFormed_append (allWellFormed_append (expandLdi_wellFormed _ _) (expandLdi_wellFormed _ _))
      (allWellFormed_singleton (asmBnz_wellFormed o _ _))
  | arith d a b addr =>
    have hpushes := allWellFormed_append
      (allWellFormed_append (expandSubPush_wellFormed a) (expandSubPush_wellFormed b)) (expandSubPush_wellFormed .lr)
    refine allWellFormed_append (allWellFormed_append (allWellFormed_append hpushes (expandLdi_wellFormed _ _))
      (expandLdi_wellFormed _ _)) ?_
    exact allWellFormed_cons (asmBnz_wellFormed o _ _) (allWellFormed_cons (.inr rfl)
      (allWellFormed_cons (.inl rfl) (allWellFormed_singleton (.inl rfl))))

/-- The constants, the address and the encoding stand inside the instructions of an expansion, not in its length
(R96). -/
theorem expand_length {κ : Type} (p : Pseudo κ) (val : κ → BitVec 16) (o : AsmBranchOp2) (here : BitVec 16) :
    (p.expand val o here).length = p.size := by
  cases p <;> rfl

/-- Settles O58. -/
theorem expansionsAreWellFormed : Obligations.ExpansionsAreWellFormed := fun _ p val o here =>
  ⟨expand_wellFormed p val o here, expand_length p val o here⟩

/-! ### Object code -/

/-- Every address of memory fits the digits of a line (log 25). -/
theorem memSize_le_addrDigits (x : Xlen) : Config.memSize x ≤ 16 ^ addrDigits x := by cases x <;> decide

/-- Settles O59: the addresses of an image that loads lie in memory, so they fit. -/
theorem objectCodeReadsBack : Obligations.ObjectCodeReadsBack := by
  intro x img
  refine ⟨parseObject_objectCode x img, fun m hboot => ?_⟩
  obtain ⟨hok, -⟩ := boot_eq_some_iff.mp hboot
  obtain ⟨haddr, -⟩ := image_ok_iff.mp hok
  have hfit : ∀ a w, (a, w) ∈ img → a < 16 ^ addrDigits x := fun a w hmem => by
    have hin := (haddr a w hmem).2
    have hsize := memSize_le_addrDigits x
    omega
  rw [Mach.bootObject, parseObject_objectCode x img hfit]
  exact hboot

theorem assemble_eq_ite (o : AsmBranchOp2) (ls : List AsmLine) :
    assemble o ls =
      if ls.all (AsmLine.defined (symbolsFrom 0 ls)) then some (emitFrom (symbolsFrom 0 ls) o 0 ls) else none := rfl

/-- An assembly gives an image exactly if every line can be assembled (30_encoding.md R97). -/
theorem assemble_eq_some {o : AsmBranchOp2} {ls : List AsmLine} {img : Image} (h : assemble o ls = some img) :
    ls.all (AsmLine.defined (symbolsFrom 0 ls)) = true ∧ img = emitFrom (symbolsFrom 0 ls) o 0 ls := by
  rw [assemble_eq_ite] at h
  split at h
  case isTrue hall => cases h; exact ⟨hall, rfl⟩
  case isFalse => cases h

@[inherit_doc assemble_eq_some]
theorem assemble_eq_none {o : AsmBranchOp2} {ls : List AsmLine} (h : assemble o ls = none) :
    ls.all (AsmLine.defined (symbolsFrom 0 ls)) = false := by
  rw [assemble_eq_ite] at h
  split at h
  case isTrue => cases h
  case isFalse hall => simpa only [Bool.not_eq_true] using hall

/-- The asterisks of the error pattern are no hexadecimal digits, so no line of object code is the pattern. -/
theorem parseObjectLine_errorPattern (x : Xlen) : parseObjectLine x errorPattern = none :=
  parseObjectLine_none (c := '*') (by decide) (by decide) (by decide)

/-- Settles O60: one line with an asterisk, or one row with a tab, rejects a file. -/
theorem errorsAndListingsAreNotRun : Obligations.ErrorsAndListingsAreNotRun := by
  intro x o src
  refine ⟨fun img h => ?_, fun h => ?_, fun h => ?_⟩
  · obtain ⟨hall, rfl⟩ := assemble_eq_some h
    exact objectFrom_defined _ o 0 _ hall
  · have herror : errorPattern ∈ assembleObject o src := objectFrom_error _ o 0 _ (assemble_eq_none h)
    exact ⟨herror, bootObject_none (parseObjectLine_errorPattern x) herror⟩
  · obtain ⟨row, hrow⟩ := List.exists_mem_of_ne_nil _ h
    have htab : '\t' ∈ row := tab_mem_listingFrom _ o 1 0 _ row hrow
    exact bootObject_none (parseObjectLine_none (by decide) (by decide) htab) hrow

end Sys2Proof.Proofs.Assembly
end
